-- ==== Sys2Proof/Word.lean ====
section
/-! DEFINITION. The type of an element. Slot addresses, counters and sizes are plain `Nat` (00_scope.md R7). -/

namespace Sys2Proof

/-- One element of the queue: a pattern of `DW` bits read as an unsigned number. The controller never
interprets, compares or computes with it (00_scope.md R6), and its width is a build parameter, so the
pattern is a natural number below `2 ^ DW`; `Memory.wf` and the operand check keep that bound. -/
abbrev Elem := Nat

end Sys2Proof
end

