-- ==== Sys2Proof/Config.lean ====
section
/-! DEFINITION. What is fixed when the hardware is built, and the values the spec leaves unspecified. -/

namespace Sys2Proof

/-- The build parameters (00_scope.md R5, R6): legal values only, so `CAPACITY = 0` cannot be written
(93_implementation_defined.md U16). -/
structure Params where
  /-- `CAPACITY`, the number of storage slots. -/
  capacity : Nat
  /-- `DW`, the number of bits of one element. -/
  dw : Nat
  capacity_pos : 0 < capacity := by decide
  dw_pos : 0 < dw := by decide
deriving DecidableEq, Repr

/-- The spec's defaults, `CAPACITY = 64` and `DW = 32` (00_scope.md R5, R6). DESIGN CHOICE, log entry 1:
`State.reset` is built with them; nothing else depends on them. -/
def Config.default : Params := { capacity := 64, dw := 32 }

/-- Free values: what the flip-flops of the five value registers hold at power-on (10_state.md R30:
"it holds no value, and a model must not pick one"). The first argument numbers the power-on, the second
the register. No body: nothing can be proved of a value of it. Log entry 11. -/
opaque Config.powerOnBits : Nat → Nat → Nat

end Sys2Proof
end

