-- ==== Sys2Proof/Syntax.lean ====
section
/-! DEFINITION. The commands of RBFIFO, one constructor per row of spec/opcode_table.json. -/

namespace Sys2Proof

/-- A command of the command port (30_encoding.md R48). Only PUSH has an operand; the other commands
ignore `wdata` (R49), so it is no part of them. -/
inductive Instr where
  /-- NOP, `op = 0` (40_queue_ops.md R61). -/
  | nop
  /-- PUSH, `op = 1`, with the element to store (40_queue_ops.md R62). -/
  | push (wdata : Elem)
  /-- POP, `op = 2` (40_queue_ops.md R63). -/
  | pop
  /-- FRONT, `op = 3` (40_queue_ops.md R64). -/
  | front
  /-- CLEAR, `op = 4` (40_queue_ops.md R65). -/
  | clear
  /-- TRAV, `op = 5` (41_traversal.md R70). -/
  | trav
  /-- TNEXT, `op = 6` (41_traversal.md R71). -/
  | tnext
  /-- The reserved code `op = 7`, `.ILL` in the assembler (30_encoding.md R50). -/
  | ill
deriving DecidableEq, Repr

end Sys2Proof
end

