-- ==== Sys2Proof/WellFormed.lean ====
section
/-! DEFINITION. Which commands the command port can carry. -/

namespace Sys2Proof

/-- The only operand, the element of PUSH, is `DW` bits wide (30_encoding.md R47, R54: `0 <= v < 2^DW`). -/
def WellFormed (p : Params) : Instr → Bool
  | .nop => true
  | .push v => decide (v < 2 ^ p.dw)
  | .pop => true
  | .front => true
  | .clear => true
  | .trav => true
  | .tnext => true
  | .ill => true

end Sys2Proof
end

