-- ==== Sys2Proof/Decode.lean ====
section
/-! DEFINITION. Decoding of the command port and of the listing word, and the encoder
(30_encoding.md R47 to R50, R56). -/

namespace Sys2Proof

/-- Why a port value or a word is not a command: it has more than `DW` bits of `wdata`, which the port
cannot carry (30_encoding.md R47). All eight values of `op` decode (R48, R50). -/
inductive DecodeReject where
  | wdataTooWide
deriving DecidableEq, Repr

/-- The table of 30_encoding.md R48: the three bits of `op` are decoded as a whole, and `wdata` matters to
PUSH alone (R49). The last line is code 7, the one reserved code (R50). -/
def decodeOp (op : BitVec 3) (wdata : Nat) : Instr :=
  match op.toNat with
  | 0 => .nop
  | 1 => .push wdata
  | 2 => .pop
  | 3 => .front
  | 4 => .clear
  | 5 => .trav
  | 6 => .tnext
  | _ => .ill

/-- The command on the port: `op[2:0]` and `wdata[DW-1:0]` (30_encoding.md R47). -/
def decodePort (p : Params) (op : BitVec 3) (wdata : Nat) : Except DecodeReject Instr :=
  if wdata < 2 ^ p.dw then .ok (decodeOp op wdata) else .error .wdataTooWide

/-- `cmdword[2:0]` (30_encoding.md R56). -/
def wordOp (w : Nat) : BitVec 3 := BitVec.ofNat 3 w

/-- `cmdword[DW+2:3]` (30_encoding.md R56). -/
def wordWdata (w : Nat) : Nat := w / 8

/-- The command a listing word of `DW + 3` bits stands for (30_encoding.md R56). -/
def decodeWord (p : Params) (w : Nat) : Except DecodeReject Instr :=
  decodePort p (wordOp w) (wordWdata w)

/-- The `op` code of a command (30_encoding.md R48). -/
def opCode : Instr → BitVec 3
  | .nop => 0
  | .push _ => 1
  | .pop => 2
  | .front => 3
  | .clear => 4
  | .trav => 5
  | .tnext => 6
  | .ill => 7

/-- What the assembler drives on `wdata`: the element for PUSH, zero otherwise (30_encoding.md R54). -/
def wdataOf : Instr → Nat
  | .nop => 0
  | .push v => v
  | .pop => 0
  | .front => 0
  | .clear => 0
  | .trav => 0
  | .tnext => 0
  | .ill => 0

/-- The canonical listing word, `wdata * 8 + op` (30_encoding.md R56). -/
def encode (i : Instr) : Nat := wdataOf i * 8 + (opCode i).toNat

/-- The instruction of an opcode-table word: the low `nbits` bits of `w`, every higher bit 0, read as a
listing word of the default build (log entry 1). -/
def decodeTableWord (nbits w : Nat) : Option Instr :=
  match decodeWord Config.default (w % 2 ^ nbits) with
  | .ok i => some i
  | .error _ => none

end Sys2Proof
end

