-- ==== Sys2Proof/Machine/State.lean ====
section
/-! DEFINITION. The state of RBFIFO, its ports' values, and the reasons a step can stop. -/

namespace Sys2Proof.Machine

/-- The storage array (10_state.md R15, 20_memory.md R31): the slots that hold a value, as pairs of slot
address and element, addresses strictly rising. A slot that is not listed has never been written since
power-on and holds no value (20_memory.md R33). The addressable unit is one whole slot, not a byte
(R35). Log entry 7. -/
abbrev Memory := List (Nat × Elem)

/-- The outcome code of a cycle (30_encoding.md R51). Codes 6 and 7 are never driven, so no constructor
stands for them (93_implementation_defined.md U8). -/
inductive Status where
  /-- OK, code 0. -/
  | ok
  /-- FULL, code 1: PUSH with `count == CAPACITY`. -/
  | full
  /-- EMPTY, code 2: POP or FRONT with `count == 0`. -/
  | empty
  /-- UNINIT, code 3: any command but NOP and the reserved code with `init == 0`. -/
  | uninit
  /-- ILLEGAL, code 4: `op == 7`. -/
  | illegal
  /-- END, code 5: TNEXT with `trem == 0`; no failure. -/
  | seqEnd
deriving DecidableEq, Repr

/-- `respond(status, rvalid, rdata)`: the three response outputs of one cycle (00_scope.md section 6,
30_encoding.md R51, R52). -/
structure Response where
  status : Status
  rvalid : Bool
  rdata : Elem
deriving DecidableEq, Repr

/-- The input triple sampled at one rising edge (10_state.md R28, 70_reset_and_hazards.md R124). -/
structure CycleInput where
  rst : Bool
  op : BitVec 3
  wdata : Nat
deriving DecidableEq, Repr

/-- What the host can see in one cycle (70_reset_and_hazards.md R124): the response, and the status outputs
`size_o`, `empty_o`, `full_o`, each `none` where the spec leaves it unspecified (42_status_outputs.md R83). -/
structure Observation where
  response : Response
  sizeO : Option Nat
  emptyO : Option Bool
  fullO : Option Bool
deriving DecidableEq, Repr

/-- The machine. `init` to `trem` are the seven items of 10_state.md R10, the whole of the controller's
state; `params` is what was fixed at build time; `inputs` and `trace` are the host's side. -/
structure State where
  /-- The build parameters (00_scope.md R5, R6). No step writes them (log entry 1). -/
  params : Params
  /-- 1 once reset has been applied since power-on (10_state.md R11). -/
  init : Bool
  /-- Address of the oldest element (10_state.md R12). -/
  head : Nat
  /-- Address where the next PUSH stores (10_state.md R13). -/
  tail : Nat
  /-- Number of valid elements (10_state.md R14). -/
  count : Nat
  /-- The elements (10_state.md R15). -/
  storage : Memory
  /-- Traversal cursor (10_state.md R16). -/
  tcur : Nat
  /-- Elements the traversal has still to yield (10_state.md R17). -/
  trem : Nat
  /-- The model's own: the input triples of the cycles still to come (log entry 3). -/
  inputs : List CycleInput
  /-- The model's own: what the outputs showed in the cycles already run, newest first (log entry 4). -/
  trace : List Observation
deriving DecidableEq, Repr

/-- Why the machine stops with a fault. -/
inductive Fault where
  /-- Raised by PUSH, POP, FRONT, CLEAR, TRAV and TNEXT while `init == 0` (60_exceptions.md R95): "a run in
  which any command ends with UNINIT is a faulted run" (R95, R109). It carries what the controller holds
  after that cycle: every register and slot unchanged, the response (UNINIT, 0, 0) recorded. Safe: the
  hardware goes on, the model stops. Log entry 5. -/
  | uninit (after : State)
  /-- Raised by the storage read of FRONT and TNEXT for a free slot (20_memory.md R46: "must make a read of a
  free slot a fault"). Safe, and no run from reset reaches it. Log entry 8. -/
  | freeSlotRead (addr : Nat)
  /-- Raised by the storage read of FRONT and TNEXT for a slot never written since power-on
  (20_memory.md R33, 93_implementation_defined.md U9). Safe, and no run from reset reaches it. Log entry 7. -/
  | slotHoldsNoValue (addr : Nat)
deriving DecidableEq, Repr

/-- Why the model gives a step no meaning. -/
inductive Refusal where
  /-- Raised by `exec` alone, for a command with no meaning yet. Safe. No arm of this model raises it. -/
  | notModelled (mnemonic : String)
  /-- Raised by a command that reads an address register holding `CAPACITY` or more, or a counter holding
  more than `CAPACITY`: "the spec gives them no meaning" (10_state.md R19; 93_implementation_defined.md U13,
  treatment refuse). Safe, and no run from reset reaches it. Log entry 9. -/
  | registerOutOfRange
  /-- Raised by the decoder and by PUSH for a `wdata` of more than `DW` bits, which the port cannot carry
  (30_encoding.md R47). Safe. Log entry 10. -/
  | wdataTooWide
  /-- Raised by `step` when the host's list of cycles is used up: the run is over
  (70_reset_and_hazards.md R124). Safe. Log entry 3. -/
  | endOfRun
deriving DecidableEq, Repr

/-- The machine right after a reset step that is the first since power-on (10_state.md R29), of the default
build (log entry 1): no slot has been written yet (log entry 12), no cycle is presented and none recorded
(log entries 3 and 4). -/
def State.reset : State :=
  { params := Config.default
    init := true
    head := 0
    tail := 0
    count := 0
    storage := []
    tcur := 0
    trem := 0
    inputs := []
    trace := [] }

end Sys2Proof.Machine
end

