-- ==== Sys2Proof/Machine/Flags.lean ====
section
/-! DEFINITION. The status outputs `size_o`, `empty_o`, `full_o`, and the lifecycle state they name. -/

namespace Sys2Proof.Machine

/-- `empty_o = (count == 0)` (42_status_outputs.md R81); from `count`, never from the pointers (R85). -/
def isEmpty (s : State) : Bool := decide (s.count = 0)

/-- `full_o = (count == CAPACITY)` (42_status_outputs.md R82, R85). -/
def isFull (s : State) : Bool := decide (s.count = s.params.capacity)

/-- An output computed from `count` has no value while `init == 0` (42_status_outputs.md R83). Log entry 11. -/
def whileConstructed {α : Type} (s : State) (v : α) : Option α := if s.init then some v else none

/-- The output `size_o` (42_status_outputs.md R80, R83). -/
def sizeO (s : State) : Option Nat := whileConstructed s s.count

/-- The output `empty_o` (42_status_outputs.md R81, R83). -/
def emptyO (s : State) : Option Bool := whileConstructed s (isEmpty s)

/-- The output `full_o` (42_status_outputs.md R82, R83). -/
def fullO (s : State) : Option Bool := whileConstructed s (isFull s)

/-- The outputs of one cycle: the response computed in it, and the status outputs of the state BEFORE its
closing edge (42_status_outputs.md R84, 40_queue_ops.md R60). -/
def observe (s : State) (r : Response) : Observation :=
  { response := r, sizeO := sizeO s, emptyO := emptyO s, fullO := fullO s }

end Sys2Proof.Machine
end

