-- ==== Sys2Proof/Machine/Ops.lean ====
section
/-! DEFINITION. The shared operations: the wrapping increment, the storage, the range guards, responding
and raising a condition. -/

namespace Sys2Proof.Machine

/-- The three outcomes of a cycle for this machine. -/
abbrev Result := Host.Outcome State Fault Refusal

/-! ### Addresses -/

/-- The one arithmetic primitive (00_scope.md R8): it wraps at `CAPACITY`, not at a power of two. It is
undefined for `p >= CAPACITY`; `withAddr` stands before every use of it. -/
def incWrap (capacity : Nat) (p : Nat) : Nat :=
  if p = capacity - 1 then 0 else p + 1

/-- The least `j >= k` with `n <= 2 ^ j`, looked for in `fuel` places. -/
def clog2From (n : Nat) (k : Nat) : Nat → Nat
  | 0 => k
  | fuel + 1 => if n ≤ 2 ^ k then k else clog2From n (k + 1) fuel

/-- `ceil(log2(n))` (00_scope.md R7). -/
def clog2 (n : Nat) : Nat := clog2From n 0 n

/-- `AW`, the width of `head`, `tail`, `tcur` (00_scope.md R7). -/
def addrWidth (p : Params) : Nat := max 1 (clog2 p.capacity)

/-- `CW`, the width of `count`, `trem`, `size_o` (00_scope.md R7). -/
def counterWidth (p : Params) : Nat := clog2 (p.capacity + 1)

/-! ### The storage -/

/-- The value slot `a` holds; `none` where it was never written since power-on (20_memory.md R33). -/
def Memory.read : Memory → Nat → Option Elem
  | [], _ => none
  | (b, v) :: m, a => if b = a then some v else Memory.read m a

/-- Slot `a` holds `v` from now on, every other slot is unchanged (20_memory.md R33). -/
def Memory.write : Memory → Nat → Elem → Memory
  | [], a, v => [(a, v)]
  | (b, w) :: m, a, v =>
    if a < b then (a, v) :: (b, w) :: m
    else if a = b then (a, v) :: m
    else (b, w) :: Memory.write m a v

/-- The canonical form: addresses strictly rising, each a slot that exists, each element `DW` bits wide
(10_state.md R15, 20_memory.md R31). An unlisted slot holds no value, so no entry can equal it. -/
abbrev Memory.wf (p : Params) (m : Memory) : Prop :=
  m.Pairwise (fun c d => c.1 < d.1) ∧ ∀ c ∈ m, c.1 < p.capacity ∧ c.2 < 2 ^ p.dw

/-- Address of the element `i` places after the oldest (10_state.md R21). -/
def slotAt (s : State) (i : Nat) : Nat := (s.head + i) % s.params.capacity

/-- A slot is valid when its address is `(head + i) mod CAPACITY` for some `i < count`; every other slot is
free (10_state.md R21). -/
def slotValid (s : State) (a : Nat) : Bool := (List.range s.count).any fun i => slotAt s i == a

/-! ### Responses and conditions -/

/-- The response of a cycle that succeeds and returns no element (30_encoding.md R52). -/
def okNoData : Response := { status := .ok, rvalid := false, rdata := 0 }

/-- The response of a FRONT or TNEXT that succeeds (30_encoding.md R52). -/
def okData (v : Elem) : Response := { status := .ok, rvalid := true, rdata := v }

/-- The response `respond(X, 0, 0)` of a condition (60_exceptions.md R92). -/
def noData (x : Status) : Response := { status := x, rvalid := false, rdata := 0 }

/-- Record what the outputs showed in the cycle that ends now. -/
def State.record (s : State) (o : Observation) : State := { s with trace := o :: s.trace }

/-- The cycle of state `s` responds `r` and its closing edge leaves `s'` (40_queue_ops.md R60). -/
def respond (s : State) (r : Response) (s' : State) : Result := .next (s'.record (observe s r))

/-- `raise X` (60_exceptions.md R92), and END, which behaves the same way (R97): the response is
`respond(X, 0, 0)` and no register and no slot changes; nothing is saved, no mode changes, and there is
nothing to return from (R99). UNINIT is a fault of the run (R95, R109), which carries the state left. -/
def raise (x : Status) (s : State) : Result :=
  if x = .uninit then .fault (.uninit (s.record (observe s (noData .uninit))))
  else respond s (noData x) s

/-! ### Guards -/

/-- Line 4 of the cycle (40_queue_ops.md R60): every command but NOP and the reserved code raises UNINIT
while `init == 0` (60_exceptions.md R95). -/
def whenInit (s : State) (k : Result) : Result := if s.init then k else raise .uninit s

/-- A command goes on with an address register it reads only if the register holds a slot address
(93_implementation_defined.md U13). Log entry 9. -/
def withAddr (s : State) (p : Nat) (k : Result) : Result :=
  if p < s.params.capacity then k else .refused .registerOutOfRange

/-- A command goes on with a counter it reads only if the counter is at most `CAPACITY`
(93_implementation_defined.md U13). Log entry 9. -/
def withCounter (s : State) (c : Nat) (k : Result) : Result :=
  if c ≤ s.params.capacity then k else .refused .registerOutOfRange

/-- `MemRead(a, 1)` (20_memory.md R33): the value of a valid slot. A free slot and a slot with no value
are faults (20_memory.md R46). Log entries 7 and 8. -/
def memRead (s : State) (a : Nat) (k : Elem → Result) : Result :=
  withAddr s a <|
    if slotValid s a then
      match s.storage.read a with
      | some v => k v
      | none => .fault (.slotHoldsNoValue a)
    else .fault (.freeSlotRead a)

/-- `MemWrite(a, 1, v)` (20_memory.md R33): the storage with the slot written, whole. -/
def memWrite (s : State) (a : Nat) (v : Elem) : Memory := s.storage.write a v

end Sys2Proof.Machine
end

