-- ==== Sys2Proof/Machine/Operands.lean ====
section
/-! DEFINITION. The one operand form of the command port: the element on `wdata`. -/

namespace Sys2Proof.Machine

/-- The operand of PUSH: all `DW` bits of `wdata`, unmodified (30_encoding.md R49). A number of more bits
is no value of the port. Log entry 10. -/
def withWdata (s : State) (v : Elem) (k : Elem → Result) : Result :=
  if v < 2 ^ s.params.dw then k v else .refused .wdataTooWide

/-- The input triple of a cycle that presents a command (30_encoding.md R47, R54). -/
def CycleInput.ofInstr (i : Instr) : CycleInput := { rst := false, op := opCode i, wdata := wdataOf i }

/-- The input triple of a cycle that presents a listing word (30_encoding.md R56). -/
def CycleInput.ofWord (w : Nat) : CycleInput := { rst := false, op := wordOp w, wdata := wordWdata w }

/-- The input triple of a reset cycle: `rst = 1` and `op = NOP` (30_encoding.md R55). -/
def CycleInput.reset : CycleInput := { rst := true, op := opCode .nop, wdata := 0 }

end Sys2Proof.Machine
end

