-- ==== Sys2Proof/Machine/Queue.lean ====
section
/-! DEFINITION. The queue commands NOP, PUSH, POP, FRONT, CLEAR (40_queue_ops.md). -/

namespace Sys2Proof.Machine

/-- NOP (40_queue_ops.md R61): no operation, in any state. -/
def execNop (s : State) : Result := respond s okNoData s

/-- PUSH (40_queue_ops.md R62): append one element at the tail. -/
def execPush (wdata : Elem) (s : State) : Result :=
  withWdata s wdata fun v =>
  whenInit s <|
  withCounter s s.count <|
  if isFull s then raise .full s
  else
    withAddr s s.tail <|
    respond s okNoData
      { s with
        storage := memWrite s s.tail v
        tail := incWrap s.params.capacity s.tail
        count := s.count + 1
        trem := 0 }

/-- POP (40_queue_ops.md R63): remove the oldest element without returning it. -/
def execPop (s : State) : Result :=
  whenInit s <|
  withCounter s s.count <|
  if isEmpty s then raise .empty s
  else
    withAddr s s.head <|
    respond s okNoData
      { s with
        head := incWrap s.params.capacity s.head
        count := s.count - 1
        trem := 0 }

/-- FRONT (40_queue_ops.md R64): return the oldest element without removing it. -/
def execFront (s : State) : Result :=
  whenInit s <|
  withCounter s s.count <|
  if isEmpty s then raise .empty s
  else memRead s s.head fun v => respond s (okData v) s

/-- CLEAR (40_queue_ops.md R65): make the buffer empty. No slot is written. -/
def execClear (s : State) : Result :=
  whenInit s <|
  respond s okNoData { s with head := 0, tail := 0, count := 0, tcur := 0, trem := 0 }

end Sys2Proof.Machine
end

