-- ==== Sys2Proof/Machine/Reserved.lean ====
section
/-! DEFINITION. The reserved command code (30_encoding.md R50). -/

namespace Sys2Proof.Machine

/-- `op = 7` (30_encoding.md R50, 60_exceptions.md R96): ILLEGAL in every state, `init == 0` included; the
defined response, which 60_exceptions.md R109 allows a model to return. Log entry 6. -/
def execIll (s : State) : Result := raise .illegal s

end Sys2Proof.Machine
end

