-- ==== Sys2Proof/Machine/Traversal.lean ====
section
/-! DEFINITION. The traversal commands TRAV, TNEXT (41_traversal.md). -/

namespace Sys2Proof.Machine

/-- TRAV (41_traversal.md R70): start or restart a traversal at the oldest element. -/
def execTrav (s : State) : Result :=
  whenInit s <|
  withAddr s s.head <|
  withCounter s s.count <|
  respond s okNoData { s with tcur := s.head, trem := s.count }

/-- TNEXT (41_traversal.md R71): yield the next element; driven by `trem`, never by comparing positions
(R75). -/
def execTnext (s : State) : Result :=
  whenInit s <|
  withCounter s s.trem <|
  if s.trem = 0 then raise .seqEnd s
  else
    memRead s s.tcur fun v =>
    respond s (okData v)
      { s with
        tcur := incWrap s.params.capacity s.tcur
        trem := s.trem - 1 }

end Sys2Proof.Machine
end

