-- ==== Sys2Proof/Machine/Dispatch.lean ====
section
/-! DEFINITION. One arm per command (40_queue_ops.md R60, lines 2 to 5). -/

namespace Sys2Proof.Machine

def exec (i : Instr) (s : State) : Host.Outcome State Fault Refusal :=
  match i with
  | .nop => Sys2Proof.Machine.execNop s
  | .push v => Sys2Proof.Machine.execPush v s
  | .pop => Sys2Proof.Machine.execPop s
  | .front => Sys2Proof.Machine.execFront s
  | .clear => Sys2Proof.Machine.execClear s
  | .trav => Sys2Proof.Machine.execTrav s
  | .tnext => Sys2Proof.Machine.execTnext s
  | .ill => Sys2Proof.Machine.execIll s

end Sys2Proof.Machine
end

