-- ==== Sys2Proof/Machine/Reset.lean ====
section
/-! DEFINITION. The reset step and the power-on state. -/

namespace Sys2Proof.Machine

/-- The registers after reset (70_reset_and_hazards.md R110, 10_state.md R29); no slot is written. -/
def State.afterReset (s : State) : State :=
  { s with init := true, head := 0, tail := 0, count := 0, tcur := 0, trem := 0 }

/-- A cycle with `rst == 1` (70_reset_and_hazards.md R110, R112): it always succeeds, whatever the state. -/
def resetCycle (s : State) : Result := respond s okNoData s.afterReset

/-- The power-on state of the `k`-th power-on, before any reset (10_state.md R30): `init` is 0, the
registers hold unspecified patterns of their widths, no slot holds a value. Log entry 11. -/
def State.powerOn (p : Params) (k : Nat) (inputs : List CycleInput) : State :=
  { params := p
    init := false
    head := Config.powerOnBits k 0 % 2 ^ addrWidth p
    tail := Config.powerOnBits k 1 % 2 ^ addrWidth p
    count := Config.powerOnBits k 2 % 2 ^ counterWidth p
    storage := []
    tcur := Config.powerOnBits k 3 % 2 ^ addrWidth p
    trem := Config.powerOnBits k 4 % 2 ^ counterWidth p
    inputs := inputs
    trace := [] }

end Sys2Proof.Machine
end

