-- ==== Sys2Proof/Machine/Cycle.lean ====
section
/-! DEFINITION. One clock cycle: what the host presents, and what the controller does with it. -/

namespace Sys2Proof.Machine

/-- The input triple of the next cycle, and the state in which that cycle runs. -/
def fetchCycle (s : State) : Option (CycleInput × State) :=
  match s.inputs with
  | [] => none
  | c :: rest => some (c, { s with inputs := rest })

/-- Execution of one cycle with the inputs `c` (40_queue_ops.md R60): reset wins over the command port
(70_reset_and_hazards.md R112), else the command `op` names is executed. -/
def cycle (c : CycleInput) (s : State) : Result :=
  if c.rst then resetCycle s
  else
    match decodePort s.params c.op c.wdata with
    | .ok i => exec i s
    | .error .wdataTooWide => .refused .wdataTooWide

/-- The host presents `c` in the next cycle, in place of what it would have presented then. -/
def State.present (s : State) (c : CycleInput) : State := { s with inputs := c :: s.inputs.drop 1 }

end Sys2Proof.Machine
end

