-- ==== Sys2Proof/Machine/Step.lean ====
section
/-! DEFINITION. The step function: one clock cycle of the host's list. -/

namespace Sys2Proof.Machine

/-- One step is one clock cycle (00_scope.md R4, 70_reset_and_hazards.md R124). -/
def step (s : State) : Host.Outcome State Fault Refusal :=
  match fetchCycle s with
  | none => .refused .endOfRun
  | some (c, s') => cycle c s'

/-- The word `w` of `nbits` bits, every higher bit 0, presented in the next cycle. -/
def State.withFetchWord (s : State) (nbits w : Nat) : State := s.present (CycleInput.ofWord (w % 2 ^ nbits))

end Sys2Proof.Machine
end

