-- ==== Sys2Proof/Machine/Assembler.lean ====
section
/-! DEFINITION. The text syntax of command lists and the pseudo-instructions (30_encoding.md R54, R55).
Text is a list of characters; nothing here adds behaviour to the controller. -/

namespace Sys2Proof.Machine

/-- One line of a command list: a command, or a pseudo-instruction of 30_encoding.md R55. -/
inductive AsmLine where
  | command (i : Instr)
  | reset
  | init (vs : List Elem)
  | traverse
  | size
  | empty
  | full
deriving DecidableEq, Repr

/-- The value of a digit below `base`, hexadecimal letters in either case (DESIGN CHOICE, log entry 15). -/
def digitValue (base : Nat) (c : Char) : Option Nat :=
  let n := c.toNat
  let d := if 48 ≤ n ∧ n ≤ 57 then n - 48
    else if 97 ≤ n ∧ n ≤ 102 then n - 87
    else if 65 ≤ n ∧ n ≤ 70 then n - 55
    else base
  if d < base then some d else none

/-- Digits read onto the number `acc`. -/
def digitsFrom (base acc : Nat) : List Char → Option Nat
  | [] => some acc
  | c :: cs =>
    match digitValue base c with
    | some d => digitsFrom base (acc * base + d) cs
    | none => none

/-- A non-empty run of digits. -/
def digits (base : Nat) (t : List Char) : Option Nat := if t = [] then none else digitsFrom base 0 t

/-- An unsigned decimal or `0x` hexadecimal literal (30_encoding.md R54). -/
def unsignedLiteral : List Char → Option Nat
  | '0' :: 'x' :: t => digits 16 t
  | t => digits 10 t

/-- The operand of `PUSH <v>`: `0 <= v < 2^DW`, or `-n`, which means `2^DW - n` (30_encoding.md R54).
DESIGN CHOICE, log entry 15: `-n` is accepted for `1 <= n <= 2^DW`, and `n` may be a decimal or a `0x`
hexadecimal number; the spec gives neither the range nor the base. -/
def literal (dw : Nat) : List Char → Option Elem
  | '-' :: t => (unsignedLiteral t).bind fun n => if 1 ≤ n ∧ n ≤ 2 ^ dw then some (2 ^ dw - n) else none
  | t => (unsignedLiteral t).bind fun n => if n < 2 ^ dw then some n else none

/-- The operands of INIT, each a literal as PUSH takes it (DESIGN CHOICE, log entry 15); `none` if one is no
such literal. -/
def literals (dw : Nat) : List (List Char) → Option (List Elem)
  | [] => some []
  | t :: ts =>
    match literal dw t, literals dw ts with
    | some v, some vs => some (v :: vs)
    | _, _ => none

/-- Text after `;` is a comment (30_encoding.md R54). -/
def stripComment (t : List Char) : List Char := t.takeWhile (· != ';')

/-- The words of a line: runs of characters that are not blanks (DESIGN CHOICE, log entry 15). -/
def wordsOf : List Char → List (List Char)
  | [] => []
  | c :: cs =>
    if c.isWhitespace then [] :: wordsOf cs
    else
      match wordsOf cs with
      | [] => [[c]]
      | w :: ws => (c :: w) :: ws

/-- The non-empty words of a line before its comment. -/
def tokens (line : List Char) : List (List Char) := (wordsOf (stripComment line)).filter (· != [])

/-- The line a mnemonic without operands stands for (30_encoding.md R54, R55). -/
def mnemonicLine : List Char → Option AsmLine
  | ['N', 'O', 'P'] => some (.command .nop)
  | ['P', 'O', 'P'] => some (.command .pop)
  | ['F', 'R', 'O', 'N', 'T'] => some (.command .front)
  | ['C', 'L', 'E', 'A', 'R'] => some (.command .clear)
  | ['T', 'R', 'A', 'V'] => some (.command .trav)
  | ['T', 'N', 'E', 'X', 'T'] => some (.command .tnext)
  | ['.', 'I', 'L', 'L'] => some (.command .ill)
  | ['R', 'E', 'S', 'E', 'T'] => some .reset
  | ['T', 'R', 'A', 'V', 'E', 'R', 'S', 'E'] => some .traverse
  | ['S', 'I', 'Z', 'E'] => some .size
  | ['E', 'M', 'P', 'T', 'Y'] => some .empty
  | ['F', 'U', 'L', 'L'] => some .full
  | _ => none

/-- One line of text: `some none` for a line with no word, `none` for a line that is no command. DESIGN
CHOICE, log entry 15: a line with no word is accepted and stands for no cycle.
DESIGN CHOICE, log entry 17: INIT may have no operand; the spec writes `INIT v1 v2 ... vN` (30_encoding.md
R55) and does not say whether `N` may be 0. -/
def parseLine (dw : Nat) (line : List Char) : Option (Option AsmLine) :=
  match tokens line with
  | [] => some none
  | [['P', 'U', 'S', 'H'], t] => (literal dw t).map fun v => some (.command (.push v))
  | ['I', 'N', 'I', 'T'] :: ts => (literals dw ts).map fun vs => some (.init vs)
  | [t] => (mnemonicLine t).map some
  | _ => none

/-- The cycles a line stands for (30_encoding.md R55). `n` is the number of elements the queue holds at a
TRAVERSE, which ends with the TNEXT that returns END (41_traversal.md R76: `n + 2` cycles): DESIGN CHOICE,
log entry 14, where the spec's host looks for END. INIT with no operand is the CLEAR alone: log entry 17. SIZE, EMPTY
and FULL read an output and cost no cycle. -/
def AsmLine.expand (n : Nat) : AsmLine → List CycleInput
  | .command i => [CycleInput.ofInstr i]
  | .reset => [CycleInput.reset]
  | .init vs => CycleInput.ofInstr .clear :: vs.map fun v => CycleInput.ofInstr (.push v)
  | .traverse => CycleInput.ofInstr .trav :: List.replicate (n + 1) (CycleInput.ofInstr .tnext)
  | .size => []
  | .empty => []
  | .full => []

/-- What SIZE, EMPTY or FULL reads in the current cycle, as a number; `none` for a line that reads no
output and where the output has no value (30_encoding.md R55, 42_status_outputs.md R83). -/
def AsmLine.query (s : State) : AsmLine → Option Nat
  | .size => sizeO s
  | .empty => (emptyO s).map Bool.toNat
  | .full => (fullO s).map Bool.toNat
  | .command _ => none
  | .reset => none
  | .init _ => none
  | .traverse => none

end Sys2Proof.Machine
end

