-- ==== Sys2Proof/Machine/Outputs.lean ====
section
/-! DEFINITION. The combinational outputs of 10_state.md R28 as functions of the state before the edge and
the inputs, written from 60_exceptions.md R98 and 20_memory.md R34 and not from the commands' rules. -/

namespace Sys2Proof.Machine

/-- The complete definition of the `status` output, its eight lines in order (60_exceptions.md R98). -/
def statusOut (s : State) (c : CycleInput) : Status :=
  if c.rst then .ok
  else if c.op = opCode .nop then .ok
  else if c.op = opCode .ill then .illegal
  else if s.init = false then .uninit
  else if c.op = opCode (.push c.wdata) ∧ s.count = s.params.capacity then .full
  else if (c.op = opCode .pop ∨ c.op = opCode .front) ∧ s.count = 0 then .empty
  else if c.op = opCode .tnext ∧ s.trem = 0 then .seqEnd
  else .ok

/-- `rvalid` is 1 exactly when a FRONT or a TNEXT completes with OK (30_encoding.md R52). -/
def rvalidOut (s : State) (c : CycleInput) : Bool :=
  !c.rst && (c.op == opCode .front || c.op == opCode .tnext) && statusOut s c == .ok

/-- The select of the read multiplexer: `head` for FRONT, `tcur` for TNEXT (20_memory.md R34). -/
def readSelect (s : State) (c : CycleInput) : Nat := if c.op = opCode .front then s.head else s.tcur

/-- `rdata`: the slot the multiplexer selects when `rvalid` is 1, zero otherwise (20_memory.md R34,
30_encoding.md R52); `none` where that slot holds no value. -/
def rdataOut (s : State) (c : CycleInput) : Option Elem :=
  if rvalidOut s c then s.storage.read (readSelect s c) else some 0

/-- The one-of-`CAPACITY` write decode (20_memory.md R34). -/
def writeEnable (s : State) (c : CycleInput) (i : Nat) : Bool :=
  c.op == opCode (.push c.wdata) && !c.rst && s.init && s.count != s.params.capacity && s.tail == i

/-- The three bits of the `status` output (30_encoding.md R51). -/
def Status.code : Status → BitVec 3
  | .ok => 0
  | .full => 1
  | .empty => 2
  | .uninit => 3
  | .illegal => 4
  | .seqEnd => 5

/-- The outcome a recorded `status` value stands for; 6 and 7 are never driven and are refused
(30_encoding.md R51, 93_implementation_defined.md U8). -/
def Status.ofCode (b : BitVec 3) : Option Status :=
  match b.toNat with
  | 0 => some .ok
  | 1 => some .full
  | 2 => some .empty
  | 3 => some .uninit
  | 4 => some .illegal
  | 5 => some .seqEnd
  | _ => none

end Sys2Proof.Machine
end

