-- ==== Sys2Proof/Safety.lean ====
section
/-! DEFINITION. The terms claims use: lifecycle states, the queue a state holds, the invariant, safe runs. -/

namespace Sys2Proof.Machine

/-- The source's implicit state machine (10_state.md R23). -/
inductive Phase where
  | uninitialized
  | empty
  | partiallyFilled
  | full
deriving DecidableEq, Repr

/-- The lifecycle state in terms of the registers (10_state.md R23). -/
def phase (s : State) : Phase :=
  if s.init = false then .uninitialized
  else if s.count = 0 then .empty
  else if s.count = s.params.capacity then .full
  else .partiallyFilled

/-- The valid elements, oldest first (10_state.md R21). -/
def contents (s : State) : List Elem :=
  (List.range s.count).filterMap fun i => s.storage.read (slotAt s i)

/-- The elements the traversal in progress has still to yield (10_state.md R22). -/
def remaining (s : State) : List Elem :=
  (List.range s.trem).filterMap fun j => s.storage.read ((s.tcur + j) % s.params.capacity)

/-- The queue as the source describes it, with no slots and no pointers: its elements oldest first, and what
a traversal in progress has still to yield. -/
structure Fifo where
  items : List Elem
  left : List Elem
deriving DecidableEq, Repr

/-- The queue a state holds. -/
def fifo (s : State) : Fifo := { items := contents s, left := remaining s }

/-- What each operation does to the queue and what it answers, from the source's sentences quoted in
40_queue_ops.md R62 to R65 and 41_traversal.md R70 to R73. -/
def Fifo.apply (capacity : Nat) (q : Fifo) : Instr → Fifo × Response
  | .nop => (q, okNoData)
  | .push v =>
    if q.items.length = capacity then (q, noData .full)
    else ({ items := q.items ++ [v], left := [] }, okNoData)
  | .pop =>
    match q.items with
    | [] => (q, noData .empty)
    | _ :: rest => ({ items := rest, left := [] }, okNoData)
  | .front =>
    match q.items with
    | [] => (q, noData .empty)
    | oldest :: _ => (q, okData oldest)
  | .clear => ({ items := [], left := [] }, okNoData)
  | .trav => ({ q with left := q.items }, okNoData)
  | .tnext =>
    match q.left with
    | [] => (q, noData .seqEnd)
    | next :: rest => ({ q with left := rest }, okData next)
  | .ill => (q, noData .illegal)

/-- The invariants of 10_state.md section 3, which hold in every state with `init == 1` reachable from
reset. -/
structure Constructed (s : State) : Prop where
  /-- 10_state.md R19. -/
  head_lt : s.head < s.params.capacity
  /-- 10_state.md R19. -/
  tail_lt : s.tail < s.params.capacity
  /-- 10_state.md R19. -/
  tcur_lt : s.tcur < s.params.capacity
  /-- 10_state.md R19. -/
  count_le : s.count ≤ s.params.capacity
  /-- 10_state.md R19. -/
  trem_le : s.trem ≤ s.count
  /-- 10_state.md R20. -/
  tail_eq : s.tail = (s.head + s.count) % s.params.capacity
  /-- 10_state.md R21: every valid slot holds a value. -/
  written : ∀ i, i < s.count → (s.storage.read (slotAt s i)).isSome = true
  /-- 10_state.md R22. -/
  cursor : ∀ j, j < s.trem →
    (s.tcur + j) % s.params.capacity = (s.head + (s.count - s.trem) + j) % s.params.capacity

/-- The invariant of the model: the storage keeps its canonical form in every state, and the invariants of
10_state.md section 3 hold once the buffer is constructed. -/
structure Inv (s : State) : Prop where
  storage_wf : Memory.wf s.params s.storage
  constructed : s.init = true → Constructed s

/-- The registers hold values of their ranges (10_state.md R19). -/
structure InRange (s : State) : Prop where
  head_lt : s.head < s.params.capacity
  tail_lt : s.tail < s.params.capacity
  tcur_lt : s.tcur < s.params.capacity
  count_le : s.count ≤ s.params.capacity
  trem_le : s.trem ≤ s.params.capacity

/-- The seven items of 10_state.md R10 and the build parameters agree: nothing of the controller changed. -/
structure SameController (s t : State) : Prop where
  params : t.params = s.params
  init : t.init = s.init
  head : t.head = s.head
  tail : t.tail = s.tail
  count : t.count = s.count
  storage : t.storage = s.storage
  tcur : t.tcur = s.tcur
  trem : t.trem = s.trem

/-- A triple the ports can carry: outside reset, `wdata` has `DW` bits (10_state.md R28). -/
def CycleInput.fits (p : Params) (c : CycleInput) : Bool := c.rst || decide (c.wdata < 2 ^ p.dw)

/-- The boot order of 70_reset_and_hazards.md R114: before the first reset step only NOP, or the reserved
code, which does not end with UNINIT either. -/
def bootOrder : Bool → List CycleInput → Bool
  | _, [] => true
  | constructed, c :: rest =>
    if c.rst then bootOrder true rest
    else (constructed || c.op == opCode .nop || c.op == opCode .ill) && bootOrder constructed rest

/-- A safe run of `n` cycles: it ends in a state, with no fault and no refusal (60_exceptions.md R109). -/
def SafeRun (n : Nat) (s t : State) : Prop := Host.Core.run Sys2Proof.core n s = .next t

/-- The responses to the TNEXT among the cycles `cs`, in order, given the observations of those cycles,
oldest first. -/
def tnextResponses : List CycleInput → List Observation → List Response
  | c :: cs, o :: os =>
    if c.rst = false ∧ c.op = opCode .tnext then o.response :: tnextResponses cs os
    else tnextResponses cs os
  | _, _ => []

/-- The number of TNEXT among the cycles `cs`. -/
def tnextCount (cs : List CycleInput) : Nat :=
  (cs.filter fun c => !c.rst && c.op == opCode .tnext).length

/-- Commands that leave a traversal where it is in a state with these outputs (41_traversal.md R73): TNEXT,
NOP, FRONT, and the commands that fail: the reserved code, PUSH when full, POP when empty. -/
def keepsTraversal (s : State) (c : CycleInput) : Bool :=
  !c.rst &&
    (c.op == opCode .tnext || c.op == opCode .nop || c.op == opCode .front || c.op == opCode .ill
      || (c.op == opCode (.push c.wdata) && isFull s) || (c.op == opCode .pop && isEmpty s))

end Sys2Proof.Machine
end

