-- ==== Sys2Proof/Certificates/Slice0/Obligations.lean ====
section
/-! DEFINITION. The statements about the model. Each docstring names the rule or the section of spec/ it
formalises. In every statement a response `⟨status, rvalid, rdata⟩` is the triple `respond(status, rvalid,
rdata)` of 00_scope.md section 6, and `observe s r` is what the outputs show in a cycle that starts in `s`. -/

open Sys2Proof Sys2Proof.Machine

/-! ### Encoding -/

/-- The listing words of 95_test_vectors.md B6, non-canonical ones included. -/
def Obligations.ListedWordsDecode : Prop :=
  decodeWord Config.default 0x0 = .ok .nop ∧
  decodeWord Config.default 0x9 = .ok (.push 1) ∧
  decodeWord Config.default 0x29 = .ok (.push 5) ∧
  decodeWord Config.default 0x1 = .ok (.push 0) ∧
  decodeWord Config.default 0x7FFFFFFF9 = .ok (.push 0xFFFFFFFF) ∧
  decodeWord Config.default 0x2 = .ok .pop ∧
  decodeWord Config.default 0xA = .ok .pop ∧
  decodeWord Config.default 0x3 = .ok .front ∧
  decodeWord Config.default 0x4 = .ok .clear ∧
  decodeWord Config.default 0x5 = .ok .trav ∧
  decodeWord Config.default 0x6 = .ok .tnext ∧
  decodeWord Config.default 0x7 = .ok .ill ∧
  decodeWord Config.default 0xF = .ok .ill

/-- Decoding the encoding of a well-formed command gives it back, with every operand, on the port and as a
listing word (30_encoding.md R47, R48, R56). -/
def Obligations.DecodeEncodeRoundTrip : Prop :=
  ∀ (p : Params) (i : Instr), WellFormed p i = true →
    encode i < 2 ^ (p.dw + 3) ∧ decodeWord p (encode i) = .ok i ∧
      decodePort p (opCode i) (wdataOf i) = .ok i

/-- Every word of `DW + 3` bits is a well-formed command, and only PUSH keeps its `wdata`: any other word
decodes as its canonical word, of `op` alone (30_encoding.md R49, R53, R56). That a longer word is rejected,
and by which name, is no rule of the spec, which has no such word: it is the model's choice (DESIGN CHOICE,
log entry 10). -/
def Obligations.EveryPortWordIsOneCommand : Prop :=
  ∀ (p : Params) (w : Nat),
    (w < 2 ^ (p.dw + 3) →
      ∃ i, decodeWord p w = .ok i ∧ WellFormed p i = true ∧ (opCode i).toNat = w % 8 ∧
        encode i = if w % 8 = 1 then w else w % 8) ∧
    (2 ^ (p.dw + 3) ≤ w → decodeWord p w = .error .wdataTooWide)

/-- The codes of the `status` output (30_encoding.md R51); 6 and 7 stand for no outcome
(93_implementation_defined.md U8). -/
def Obligations.StatusCodesAreTabled : Prop :=
  (Status.code .ok = 0 ∧ Status.code .full = 1 ∧ Status.code .empty = 2 ∧ Status.code .uninit = 3 ∧
    Status.code .illegal = 4 ∧ Status.code .seqEnd = 5) ∧
  (∀ x : Status, Status.ofCode x.code = some x) ∧ Status.ofCode 6 = none ∧ Status.ofCode 7 = none

/-! ### The cycle, reset and power-on -/

/-- A cycle with `rst == 0` whose port values decode to `i` is `exec i`, in the state whose host list has
moved on by that cycle (40_queue_ops.md R60). -/
def Obligations.StepRunsDecodedCommand : Prop :=
  ∀ (s : State) (c : CycleInput) (rest : List CycleInput) (i : Instr),
    s.inputs = c :: rest → c.rst = false → decodePort s.params c.op c.wdata = .ok i →
      step s = exec i { s with inputs := rest }

/-- A reset cycle, in any state and whatever `op` and `wdata` are (70_reset_and_hazards.md R110). -/
def Obligations.ResetCycleEffect : Prop :=
  ∀ (s : State) (c : CycleInput) (rest : List CycleInput), s.inputs = c :: rest → c.rst = true →
    step s = .next
      { s with
        init := true, head := 0, tail := 0, count := 0, tcur := 0, trem := 0, inputs := rest
        trace := observe s ⟨.ok, false, 0⟩ :: s.trace }

/-- The state right after reset: the registers of 10_state.md R29 and the outputs just after reset
(42_status_outputs.md R84). The default build and the empty storage, list and trace are the model's choice
(log entries 1, 3, 4, 12). -/
def Obligations.ResetStateValues : Prop :=
  State.reset.init = true ∧ State.reset.head = 0 ∧ State.reset.tail = 0 ∧ State.reset.count = 0 ∧
  State.reset.tcur = 0 ∧ State.reset.trem = 0 ∧
  sizeO State.reset = some 0 ∧ emptyO State.reset = some true ∧ fullO State.reset = some false ∧
  (∀ a, State.reset.storage.read a = none)

/-- The invariant holds right after reset (10_state.md section 3). -/
def Obligations.ResetStateMeetsInvariant : Prop := Inv State.reset

/-- Before the first reset step `init` is 0, no slot holds a value, the status outputs have no value, and
the invariant holds, whatever the free power-on values are (10_state.md R30, 42_status_outputs.md R83). -/
def Obligations.PowerOnStateHoldsNoValue : Prop :=
  ∀ (p : Params) (k : Nat) (inputs : List CycleInput),
    (State.powerOn p k inputs).init = false ∧
    (∀ a, (State.powerOn p k inputs).storage.read a = none) ∧
    sizeO (State.powerOn p k inputs) = none ∧ emptyO (State.powerOn p k inputs) = none ∧
    fullO (State.powerOn p k inputs) = none ∧ Inv (State.powerOn p k inputs)

/-- From power-on, one reset cycle gives the registers after reset, no slot written, and a response (OK,0,0)
with the status outputs unspecified in that cycle (70_reset_and_hazards.md R110, R114, 42_status_outputs.md
R84); vector V50. -/
def Obligations.PowerOnThenReset : Prop :=
  ∀ (p : Params) (k : Nat) (c : CycleInput) (rest : List CycleInput), c.rst = true →
    step (State.powerOn p k (c :: rest)) = .next
      { params := p, init := true, head := 0, tail := 0, count := 0, storage := [], tcur := 0, trem := 0
        inputs := rest
        trace := [{ response := ⟨.ok, false, 0⟩, sizeO := none, emptyO := none, fullO := none }] }

/-! ### What each command does -/

/-- NOP (40_queue_ops.md R61): OK in every state, constructed or not, and nothing changes. It is `op = 0`,
whatever `wdata` is. -/
def Obligations.NopCompletes : Prop :=
  ∀ s : State,
    exec .nop s = .next { s with trace := observe s ⟨.ok, false, 0⟩ :: s.trace } ∧
    ∀ w, w < 2 ^ s.params.dw → decodePort s.params 0 w = .ok .nop

/-- PUSH (40_queue_ops.md R62). It succeeds when `count` is below `CAPACITY`: `wdata` is stored unmodified at
the old `tail` and at no other slot, `tail` steps by `inc_wrap`, `count` grows by one, a traversal is
cancelled, and nothing else changes. It fails with FULL, and with UNINIT, and then nothing changes. It is
`op = 1`, with every bit of `wdata` in the operand. -/
def Obligations.PushStoresAtTail : Prop :=
  ∀ (v : Elem) (s : State), v < 2 ^ s.params.dw →
    (s.init = true → s.tail < s.params.capacity → s.count < s.params.capacity →
      ∃ m : Memory,
        exec (.push v) s = .next
          { s with
            storage := m
            tail := if s.tail = s.params.capacity - 1 then 0 else s.tail + 1
            count := s.count + 1
            trem := 0
            trace := observe s ⟨.ok, false, 0⟩ :: s.trace } ∧
        m.read s.tail = some v ∧ ∀ a, a ≠ s.tail → m.read a = s.storage.read a) ∧
    (s.init = true → s.count = s.params.capacity →
      exec (.push v) s = .next { s with trace := observe s ⟨.full, false, 0⟩ :: s.trace }) ∧
    (s.init = false →
      exec (.push v) s = .fault (.uninit { s with trace := observe s ⟨.uninit, false, 0⟩ :: s.trace })) ∧
    decodePort s.params 1 v = .ok (.push v)

/-- POP (40_queue_ops.md R63). It succeeds when `count` is not 0: `head` steps by `inc_wrap`, `count` falls by
one, a traversal is cancelled, no element is returned and nothing else changes. It fails with EMPTY, and
with UNINIT, and then nothing changes. It is `op = 2`, whatever `wdata` is. -/
def Obligations.PopAdvancesHead : Prop :=
  ∀ s : State,
    (s.init = true → s.head < s.params.capacity → 0 < s.count → s.count ≤ s.params.capacity →
      exec .pop s = .next
        { s with
          head := if s.head = s.params.capacity - 1 then 0 else s.head + 1
          count := s.count - 1
          trem := 0
          trace := observe s ⟨.ok, false, 0⟩ :: s.trace }) ∧
    (s.init = true → s.count = 0 →
      exec .pop s = .next { s with trace := observe s ⟨.empty, false, 0⟩ :: s.trace }) ∧
    (s.init = false →
      exec .pop s = .fault (.uninit { s with trace := observe s ⟨.uninit, false, 0⟩ :: s.trace })) ∧
    ∀ w, w < 2 ^ s.params.dw → decodePort s.params 2 w = .ok .pop

/-- FRONT (40_queue_ops.md R64). It succeeds when `count` is not 0: the element at `head` is returned. It
fails with EMPTY and with UNINIT, with no data. In no case does anything change. It is `op = 3`, whatever
`wdata` is. -/
def Obligations.FrontReturnsHeadSlot : Prop :=
  ∀ s : State,
    (∀ v : Elem, s.init = true → s.head < s.params.capacity → 0 < s.count →
      s.count ≤ s.params.capacity → s.storage.read s.head = some v →
      exec .front s = .next { s with trace := observe s ⟨.ok, true, v⟩ :: s.trace }) ∧
    (s.init = true → s.count = 0 →
      exec .front s = .next { s with trace := observe s ⟨.empty, false, 0⟩ :: s.trace }) ∧
    (s.init = false →
      exec .front s = .fault (.uninit { s with trace := observe s ⟨.uninit, false, 0⟩ :: s.trace })) ∧
    ∀ w, w < 2 ^ s.params.dw → decodePort s.params 3 w = .ok .front

/-- CLEAR (40_queue_ops.md R65). It succeeds in every constructed state, sets the five registers to 0, and
writes no slot. It fails with UNINIT, and then nothing changes. It is `op = 4`, whatever `wdata` is. -/
def Obligations.ClearEmptiesQueue : Prop :=
  ∀ s : State,
    (s.init = true →
      exec .clear s = .next
        { s with
          head := 0, tail := 0, count := 0, tcur := 0, trem := 0
          trace := observe s ⟨.ok, false, 0⟩ :: s.trace }) ∧
    (s.init = false →
      exec .clear s = .fault (.uninit { s with trace := observe s ⟨.uninit, false, 0⟩ :: s.trace })) ∧
    ∀ w, w < 2 ^ s.params.dw → decodePort s.params 4 w = .ok .clear

/-- TRAV (41_traversal.md R70). The cursor and the down-counter are loaded from `head` and `count`, also while
a traversal is in progress and when the buffer is empty or full; nothing else changes. It fails with
UNINIT, and then nothing changes. It is `op = 5`, whatever `wdata` is. -/
def Obligations.TravLoadsCursor : Prop :=
  ∀ s : State,
    (s.init = true → s.head < s.params.capacity → s.count ≤ s.params.capacity →
      exec .trav s = .next
        { s with
          tcur := s.head
          trem := s.count
          trace := observe s ⟨.ok, false, 0⟩ :: s.trace }) ∧
    (s.init = false →
      exec .trav s = .fault (.uninit { s with trace := observe s ⟨.uninit, false, 0⟩ :: s.trace })) ∧
    ∀ w, w < 2 ^ s.params.dw → decodePort s.params 5 w = .ok .trav

/-- TNEXT (41_traversal.md R71). While `trem` is not 0 the element at the cursor, which is a valid slot, is
returned, the cursor steps by `inc_wrap`, the down-counter falls by one, and nothing else changes. With
`trem` 0 it responds END, before reset it fails with UNINIT, and then nothing changes. It is `op = 6`,
whatever `wdata` is. -/
def Obligations.TnextYieldsCursorSlot : Prop :=
  ∀ s : State,
    (∀ (v : Elem) (i : Nat), s.init = true → 0 < s.trem → s.trem ≤ s.params.capacity →
      s.tcur < s.params.capacity → i < s.count → s.tcur = (s.head + i) % s.params.capacity →
      s.storage.read s.tcur = some v →
      exec .tnext s = .next
        { s with
          tcur := if s.tcur = s.params.capacity - 1 then 0 else s.tcur + 1
          trem := s.trem - 1
          trace := observe s ⟨.ok, true, v⟩ :: s.trace }) ∧
    (s.init = true → s.trem = 0 →
      exec .tnext s = .next { s with trace := observe s ⟨.seqEnd, false, 0⟩ :: s.trace }) ∧
    (s.init = false →
      exec .tnext s = .fault (.uninit { s with trace := observe s ⟨.uninit, false, 0⟩ :: s.trace })) ∧
    ∀ w, w < 2 ^ s.params.dw → decodePort s.params 6 w = .ok .tnext

/-- The reserved code (30_encoding.md section 1): ILLEGAL in every state, constructed or not, and nothing
changes. That it answers a next state with that response, and not a fault, is the model's choice between the
two that 60_exceptions.md section 6 allows (DESIGN CHOICE, log entry 6). -/
def Obligations.ReservedCodeAnswersIllegal : Prop :=
  ∀ s : State, exec .ill s = .next { s with trace := observe s ⟨.illegal, false, 0⟩ :: s.trace }

/-- A cycle responds ILLEGAL exactly when `rst == 0` and `op == 7`, whatever the state, `init == 0` included,
and then nothing changes (60_exceptions.md section 1). That the cycle answers a next state with that
response, and not a fault, is the model's choice between the two that 60_exceptions.md section 6 allows
(DESIGN CHOICE, log entry 6). -/
def Obligations.IllegalExactlyOnReservedCode : Prop :=
  ∀ (s : State) (c : CycleInput) (rest : List CycleInput), s.inputs = c :: rest →
    c.fits s.params = true →
    (step s = .next
        { s with inputs := rest, trace := observe s ⟨.illegal, false, 0⟩ :: s.trace } ↔
      c.rst = false ∧ c.op = 7)

/-! ### Conditions -/

/-- A PUSH of an element the port carries responds FULL exactly when `init == 1` and `count == CAPACITY`
(60_exceptions.md R93), and then nothing changes: the oldest element is not overwritten. -/
def Obligations.FullExactlyOnPushWhenFull : Prop :=
  ∀ (v : Elem) (s : State), v < 2 ^ s.params.dw →
    (exec (.push v) s = .next { s with trace := observe s ⟨.full, false, 0⟩ :: s.trace } ↔
      s.init = true ∧ s.count = s.params.capacity)

/-- POP and FRONT respond EMPTY exactly when `init == 1` and `count == 0`, and then nothing changes; TNEXT
never responds EMPTY (60_exceptions.md R94). -/
def Obligations.EmptyExactlyOnPopOrFrontWhenEmpty : Prop :=
  ∀ s : State,
    (exec .pop s = .next { s with trace := observe s ⟨.empty, false, 0⟩ :: s.trace } ↔
      s.init = true ∧ s.count = 0) ∧
    (exec .front s = .next { s with trace := observe s ⟨.empty, false, 0⟩ :: s.trace } ↔
      s.init = true ∧ s.count = 0) ∧
    (∀ (t : State) (o : Observation) (older : List Observation), exec .tnext s = .next t →
      t.trace = o :: older → o.response.status ≠ .empty)

/-- PUSH, POP, FRONT, CLEAR, TRAV and TNEXT end with UNINIT exactly when `init == 0`; the run is then faulted,
and what the controller holds is unchanged, with the response (UNINIT,0,0) (60_exceptions.md R95). -/
def Obligations.UninitExactlyBeforeReset : Prop :=
  ∀ (i : Instr) (s : State), WellFormed s.params i = true →
    (exec i s = .fault (.uninit { s with trace := observe s ⟨.uninit, false, 0⟩ :: s.trace }) ↔
      s.init = false ∧ i ≠ .nop ∧ i ≠ .ill)

/-- TNEXT responds END exactly when `init == 1` and `trem == 0`, and then nothing changes
(60_exceptions.md R97). -/
def Obligations.EndExactlyWhenNothingRemains : Prop :=
  ∀ s : State,
    exec .tnext s = .next { s with trace := observe s ⟨.seqEnd, false, 0⟩ :: s.trace } ↔
      s.init = true ∧ s.trem = 0

/-- A cycle that ends with a condition, or with END, changes nothing of the controller: no register, no slot,
and the response carries no data; an UNINIT cycle ends the run with exactly that state
(60_exceptions.md R92). -/
def Obligations.ConditionChangesNothing : Prop :=
  (∀ (s t : State) (o : Observation) (older : List Observation), step s = .next t →
    t.trace = o :: older → o.response.status ≠ .ok →
    SameController s t ∧ o.response.rvalid = false ∧ o.response.rdata = 0) ∧
  (∀ s t : State, step s = .fault (.uninit t) →
    SameController s t ∧ t.trace = observe s ⟨.uninit, false, 0⟩ :: s.trace)

/-- Which status a command cannot end with (60_exceptions.md R91, the blank entries); a command that ends
with UNINIT is neither NOP nor the reserved code. -/
def Obligations.StatusesOfEachCommand : Prop :=
  (∀ (i : Instr) (s t : State) (o : Observation) (older : List Observation), exec i s = .next t →
    t.trace = o :: older →
    match i with
    | .nop => o.response.status = .ok
    | .push _ => o.response.status = .ok ∨ o.response.status = .full
    | .pop => o.response.status = .ok ∨ o.response.status = .empty
    | .front => o.response.status = .ok ∨ o.response.status = .empty
    | .clear => o.response.status = .ok
    | .trav => o.response.status = .ok
    | .tnext => o.response.status = .ok ∨ o.response.status = .seqEnd
    | .ill => o.response.status = .illegal) ∧
  (∀ (i : Instr) (s t : State), exec i s = .fault (.uninit t) → i ≠ .nop ∧ i ≠ .ill)

/-- The command rules give the outputs that the combinational definitions give: the status by the eight
lines of 60_exceptions.md R98, `rvalid` and `rdata` by the read multiplexer of 20_memory.md R34, in every
state of the invariant, constructed or not. That ILLEGAL is a next state, as every outcome but UNINIT is
here, is the model's choice (DESIGN CHOICE, log entry 6). -/
def Obligations.ResponseIsTheCombinationalOne : Prop :=
  ∀ (s : State) (c : CycleInput) (rest : List CycleInput), Inv s → s.inputs = c :: rest →
    c.fits s.params = true →
    ∃ (r : Response) (t : State), t.trace = observe s r :: s.trace ∧
      (step s = .next t ∨ step s = .fault (.uninit t)) ∧
      r.status = statusOut s c ∧ r.rvalid = rvalidOut s c ∧ some r.rdata = rdataOut s c ∧
      (step s = .fault (.uninit t) ↔ statusOut s c = .uninit)

/-- `rvalid` is 1 exactly when the command is a FRONT or a TNEXT that completes with OK; then `rdata` is the
element read, at `head` for FRONT and at `tcur` for TNEXT; in every other cycle `rdata` is zero
(30_encoding.md R52). -/
def Obligations.DataOnlyFromFrontAndTnext : Prop :=
  (∀ (s t : State) (c : CycleInput) (rest : List CycleInput) (o : Observation) (older : List Observation),
    step s = .next t → s.inputs = c :: rest → t.trace = o :: older →
    (o.response.rvalid = true ↔
      c.rst = false ∧ (c.op = 3 ∨ c.op = 6) ∧ o.response.status = .ok) ∧
    (o.response.rvalid = true →
      s.storage.read (if c.op = 3 then s.head else s.tcur) = some o.response.rdata) ∧
    (o.response.rvalid = false → o.response.rdata = 0)) ∧
  (∀ s t : State, step s = .fault (.uninit t) → ∃ o, t.trace = o :: s.trace ∧
    o.response.rvalid = false ∧ o.response.rdata = 0)

/-! ### Status outputs -/

/-- During a cycle, reset cycles included, the status outputs show `count` before the command, whatever the
inputs are; they have no value while `init == 0`. In the cycle after a reset cycle they are 0, 1 and 0
(42_status_outputs.md R84). -/
def Obligations.OutputsShowCountBeforeTheEdge : Prop :=
  (∀ s t : State, step s = .next t ∨ step s = .fault (.uninit t) → ∃ o, t.trace = o :: s.trace ∧
    (s.init = true →
      o.sizeO = some s.count ∧ o.emptyO = some (decide (s.count = 0)) ∧
      o.fullO = some (decide (s.count = s.params.capacity))) ∧
    (s.init = false → o.sizeO = none ∧ o.emptyO = none ∧ o.fullO = none)) ∧
  (∀ (s t : State) (c : CycleInput) (rest : List CycleInput), s.inputs = c :: rest → c.rst = true →
    step s = .next t → sizeO t = some 0 ∧ emptyO t = some true ∧ fullO t = some false)

/-- `empty_o` and `full_o` are never both 1, and with `CAPACITY == 1` exactly one of them is
(42_status_outputs.md R82). -/
def Obligations.EmptyAndFullExclude : Prop :=
  ∀ s : State, Inv s → s.init = true →
    ¬ (emptyO s = some true ∧ fullO s = some true) ∧
    (s.params.capacity = 1 → (emptyO s = some true ↔ fullO s = some false))

/-- In every state of the invariant `tail == (head + count) mod CAPACITY`, and `tail == head` exactly when the
buffer is empty or full, so the pointers alone cannot tell the two apart. The source does not state this
relation: it is an inference that the spec marks as its own, "[derived: from 40_queue_ops.md rules R62, R63,
R65 and 70_reset_and_hazards.md rule R110]" (10_state.md section 3). -/
def Obligations.PointersMeetWhenEmptyOrFull : Prop :=
  ∀ s : State, Inv s → s.init = true →
    s.tail = (s.head + s.count) % s.params.capacity ∧
    (s.tail = s.head ↔ s.count = 0 ∨ s.count = s.params.capacity)

/-- The register widths of 00_scope.md R7 hold the values of every state of the invariant. -/
def Obligations.RegistersFitTheirWidths : Prop :=
  ∀ s : State, Inv s → s.init = true →
    s.head < 2 ^ addrWidth s.params ∧ s.tail < 2 ^ addrWidth s.params ∧ s.tcur < 2 ^ addrWidth s.params ∧
    s.count < 2 ^ counterWidth s.params ∧ s.trem < 2 ^ counterWidth s.params

/-- `inc_wrap` is 0 at `CAPACITY-1` and `p + 1` elsewhere; it equals `(p + 1) mod CAPACITY` on
`0 .. CAPACITY-1` and maps that range to itself (00_scope.md R8). -/
def Obligations.IncWrapIsSuccessorModCapacity : Prop :=
  ∀ capacity p : Nat, p < capacity →
    incWrap capacity p = (if p = capacity - 1 then 0 else p + 1) ∧
    incWrap capacity p = (p + 1) % capacity ∧ incWrap capacity p < capacity

/-! ### Frames -/

/-- What a PUSH leaves alone, whether it succeeds or fails (10_state.md R24): every register but `tail`,
`count`, `trem`, and every slot but the one at `tail`. -/
def Obligations.PushFrame : Prop :=
  ∀ (v : Elem) (s t : State), exec (.push v) s = .next t →
    t.params = s.params ∧ t.init = s.init ∧ t.head = s.head ∧ t.tcur = s.tcur ∧ t.inputs = s.inputs ∧
    (∃ o, t.trace = o :: s.trace) ∧ ∀ a, a ≠ s.tail → t.storage.read a = s.storage.read a

/-- What POP, CLEAR, TRAV and TNEXT leave alone (10_state.md R24): they store nothing, POP writes only
`head`, `count`, `trem`, CLEAR only the five registers, TRAV and TNEXT only `tcur` and `trem`, so the
status outputs stay as they are under TRAV and TNEXT. -/
def Obligations.RegisterCommandsFrame : Prop :=
  (∀ (i : Instr) (s t : State), i = .pop ∨ i = .clear ∨ i = .trav ∨ i = .tnext → exec i s = .next t →
    t.params = s.params ∧ t.init = s.init ∧ t.inputs = s.inputs ∧ (∃ o, t.trace = o :: s.trace) ∧
    ∀ a, t.storage.read a = s.storage.read a) ∧
  (∀ s t : State, exec .pop s = .next t → t.tail = s.tail ∧ t.tcur = s.tcur) ∧
  (∀ (i : Instr) (s t : State), i = .trav ∨ i = .tnext → exec i s = .next t →
    t.head = s.head ∧ t.tail = s.tail ∧ t.count = s.count ∧
    sizeO t = sizeO s ∧ emptyO t = emptyO s ∧ fullO t = fullO s)

/-- NOP, FRONT and the reserved code change nothing of the controller (10_state.md R24): no register, no
slot, and the status outputs stay as they are. -/
def Obligations.ReadOnlyCommandsFrame : Prop :=
  ∀ (i : Instr) (s t : State), i = .nop ∨ i = .front ∨ i = .ill → exec i s = .next t →
    SameController s t ∧ t.inputs = s.inputs ∧ (∃ o, t.trace = o :: s.trace) ∧
    sizeO t = sizeO s ∧ emptyO t = emptyO s ∧ fullO t = fullO s

/-- The write path (20_memory.md R34): after a cycle slot `i` holds `wdata` where the write decode selects
it, and every other slot is unchanged; reset, CLEAR and POP write none (R46). -/
def Obligations.StorageFollowsWriteDecode : Prop :=
  ∀ (s t : State) (c : CycleInput) (rest : List CycleInput), step s = .next t → s.inputs = c :: rest →
    ∀ i, t.storage.read i = if writeEnable s c i then some c.wdata else s.storage.read i

/-- `wdata` is ignored unless `op` is PUSH: it affects neither the state nor any output
(30_encoding.md R49). -/
def Obligations.WdataIgnoredUnlessPush : Prop :=
  ∀ (s : State) (c : CycleInput) (rest : List CycleInput) (w : Nat), c.op ≠ 1 →
    c.wdata < 2 ^ s.params.dw → w < 2 ^ s.params.dw →
    step { s with inputs := { c with wdata := w } :: rest } = step { s with inputs := c :: rest }

/-- `init` is written only by reset, which sets it, and nothing clears it (10_state.md R11). -/
def Obligations.OnlyResetWritesInit : Prop :=
  ∀ (s t : State) (c : CycleInput) (rest : List CycleInput), step s = .next t → s.inputs = c :: rest →
    t.init = (s.init || c.rst)

/-- The parameters are fixed when the hardware is built: no cycle changes them (00_scope.md R5, 10_state.md
R27). -/
def Obligations.ParametersNeverChange : Prop :=
  ∀ s t : State, step s = .next t → t.params = s.params

/-! ### Invariants, and what they rule out -/

/-- Every step keeps the invariant: the canonical form of the storage, and the ranges, the pointer relation,
the occupied range and the traversal invariant of a constructed state (10_state.md R19 to R22). -/
def Obligations.StepKeepsInvariant : Prop := ∀ s t : State, Inv s → step s = .next t → Inv t

/-- A constructed machine never stops: in every state of the invariant with `init == 1`, every input the
ports can carry has a next state (40_queue_ops.md R60, 60_exceptions.md R109). No read of a free slot and no
register out of range can occur (20_memory.md R46, 10_state.md R19). That the reserved code has a next state
too is the model's choice (DESIGN CHOICE, log entry 6). -/
def Obligations.ConstructedMachineNeverStops : Prop :=
  ∀ (s : State) (c : CycleInput) (rest : List CycleInput), Inv s → s.init = true → s.inputs = c :: rest →
    c.fits s.params = true → ∃ t, step s = .next t ∧ t.init = true ∧ t.inputs = rest

/-- A host that keeps the boot order of 70_reset_and_hazards.md R114 sees its whole list of cycles run, one
observation per cycle, from power-on or from any other state of the invariant. That the reserved code may
stand among the cycles is the model's choice (DESIGN CHOICE, log entry 6). -/
def Obligations.BootedRunIsSafe : Prop :=
  ∀ s : State, Inv s → bootOrder s.init s.inputs = true →
    (∀ c ∈ s.inputs, c.fits s.params = true) →
    ∃ t, SafeRun s.inputs.length s t ∧ Inv t ∧ t.inputs = [] ∧
      t.trace.length = s.trace.length + s.inputs.length

/-- The lifecycle moves only as the source's state machine says (10_state.md R23): PUSH from empty or
partially-filled to partially-filled or full; POP from partially-filled or full to partially-filled or
empty; CLEAR from any constructed state to empty; PUSH on full and POP on empty are self-loops that signal
FULL and EMPTY; every other command stays where it is; reset goes to empty from any state; CLEAR in the uninitialized state fails with UNINIT and
stays there; with `CAPACITY == 1` no state of the invariant is partially-filled. -/
def Obligations.LifecycleTransitions : Prop :=
  (∀ (i : Instr) (s t : State), Inv s → exec i s = .next t →
    match i with
    | .push _ =>
        (phase s = .full ∧ phase t = .full ∧ t.trace = observe s ⟨.full, false, 0⟩ :: s.trace) ∨
        ((phase s = .empty ∨ phase s = .partiallyFilled) ∧
          (phase t = .partiallyFilled ∨ phase t = .full) ∧
          t.trace = observe s ⟨.ok, false, 0⟩ :: s.trace)
    | .pop =>
        (phase s = .empty ∧ phase t = .empty ∧ t.trace = observe s ⟨.empty, false, 0⟩ :: s.trace) ∨
        ((phase s = .full ∨ phase s = .partiallyFilled) ∧
          (phase t = .partiallyFilled ∨ phase t = .empty) ∧
          t.trace = observe s ⟨.ok, false, 0⟩ :: s.trace)
    | .clear => phase s ≠ .uninitialized ∧ phase t = .empty
    | .nop => phase t = phase s
    | .front => phase t = phase s
    | .trav => phase t = phase s
    | .tnext => phase t = phase s
    | .ill => phase t = phase s) ∧
  (∀ s t : State, resetCycle s = .next t → phase t = .empty) ∧
  (∀ s : State, phase s = .uninitialized →
    ∃ t, exec .clear s = .fault (.uninit t) ∧ phase t = .uninitialized) ∧
  (∀ s : State, Inv s → s.params.capacity = 1 → phase s ≠ .partiallyFilled)

/-- `count` moves by exactly one up (a PUSH with OK), one down (a POP with OK) or to 0 (CLEAR), else not at
all, and never leaves `0 .. CAPACITY` (40_queue_ops.md R67). -/
def Obligations.CountMovesByOneOrToZero : Prop :=
  ∀ (i : Instr) (s t : State) (o : Observation), Inv s → exec i s = .next t → t.trace = o :: s.trace →
    (t.init = true → t.count ≤ t.params.capacity) ∧
    match i with
    | .push _ => t.count = if o.response.status = .ok then s.count + 1 else s.count
    | .pop => if o.response.status = .ok then t.count + 1 = s.count else t.count = s.count
    | .clear => t.count = 0
    | .nop => t.count = s.count
    | .front => t.count = s.count
    | .trav => t.count = s.count
    | .tnext => t.count = s.count
    | .ill => t.count = s.count

/-! ### The queue -/

/-- The controller implements the queue of the source: whatever the slots and pointers are, every command
answers and changes the queue as the source's operation says (10_state.md R21, R22, 40_queue_ops.md R61 to
R65, 41_traversal.md R70, R71). That the reserved code answers a next state is the model's choice (DESIGN
CHOICE, log entry 6). -/
def Obligations.ControllerRefinesQueue : Prop :=
  ∀ (i : Instr) (s : State), Inv s → s.init = true → WellFormed s.params i = true →
    ∃ t, exec i s = .next t ∧ fifo t = (Fifo.apply s.params.capacity (fifo s) i).1 ∧
      t.trace = observe s (Fifo.apply s.params.capacity (fifo s) i).2 :: s.trace

/-- What a traversal has still to yield is the end of the queue, `trem` elements of it, and the queue has
`count` elements (10_state.md R21, R22). -/
def Obligations.TraversalIsQueueSuffix : Prop :=
  ∀ s : State, Inv s → s.init = true →
    (contents s).length = s.count ∧ (remaining s).length = s.trem ∧
      remaining s = (contents s).drop (s.count - s.trem)

/-- The sequence property (41_traversal.md R73): after a TRAV, and as long as only TNEXT, NOP, FRONT and
failing commands follow, the TNEXT return the elements of the queue, oldest first, and then END, and the
queue is as it was. That the run goes on after the reserved code is the model's choice (DESIGN CHOICE, log
entry 6). -/
def Obligations.TraversalYieldsContents : Prop :=
  ∀ (s : State) (c : CycleInput) (cs : List CycleInput), Inv s → s.init = true → s.inputs = c :: cs →
    c.rst = false → c.op = 5 → c.wdata < 2 ^ s.params.dw →
    (∀ d ∈ cs, keepsTraversal s d = true ∧ d.fits s.params = true) →
    ∃ (t : State) (os : List Observation), SafeRun (cs.length + 1) s t ∧
      t.trace = os.reverse ++ s.trace ∧
      tnextResponses (c :: cs) os =
        ((contents s).map fun v => (⟨.ok, true, v⟩ : Response)).take (tnextCount cs) ++
          List.replicate (tnextCount cs - s.count) ⟨.seqEnd, false, 0⟩ ∧
      contents t = contents s ∧ t.head = s.head ∧ t.tail = s.tail ∧ t.count = s.count

/-- The pseudo-instruction TRAVERSE (30_encoding.md section 3, 41_traversal.md section 4), expanded with the
number of elements the queue holds: its TNEXT return the whole queue, oldest first, and one END. The
expansion takes that number as an argument, where the spec repeats TNEXT until END, so the `n + 2` cycles
are the length of the model's own list: the model's choice (DESIGN CHOICE, log entry 14). -/
def Obligations.TraverseLineReadsQueue : Prop :=
  ∀ s : State, Inv s → s.init = true → s.inputs = AsmLine.traverse.expand s.count →
    ∃ (t : State) (os : List Observation), SafeRun (s.count + 2) s t ∧ t.inputs = [] ∧
      t.trace = os.reverse ++ s.trace ∧
      tnextResponses s.inputs os =
        ((contents s).map fun v => (⟨.ok, true, v⟩ : Response)) ++ [⟨.seqEnd, false, 0⟩] ∧
      contents t = contents s

/-- The pseudo-instruction INIT (30_encoding.md section 3; its leading CLEAR is the spec's own choice) leaves
the queue holding exactly its operands, in order, whatever it held before. That there may be no operand, and
the queue is then empty, is the model's choice (DESIGN CHOICE, log entry 17). -/
def Obligations.InitLineFillsQueue : Prop :=
  ∀ (s : State) (vs : List Elem), Inv s → s.init = true → s.inputs = (AsmLine.init vs).expand s.count →
    vs.length ≤ s.params.capacity → (∀ v ∈ vs, v < 2 ^ s.params.dw) →
    ∃ t, SafeRun (vs.length + 1) s t ∧ t.inputs = [] ∧ contents t = vs

/-- Wraparound (the property of 95_test_vectors.md E4, corrected by 90_conflicts.md C4): fill the buffer, POP
`k`, PUSH `k` more: the queue holds the `CAPACITY - k` surviving elements and then the `k` new ones. -/
def Obligations.WraparoundKeepsOrder : Prop :=
  ∀ (s : State) (old new : List Elem), Inv s → s.init = true → s.count = 0 →
    old.length = s.params.capacity → new.length ≤ s.params.capacity →
    (∀ v ∈ old ++ new, v < 2 ^ s.params.dw) →
    s.inputs = old.map (fun v => CycleInput.ofInstr (.push v)) ++
      List.replicate new.length (CycleInput.ofInstr .pop) ++
      new.map (fun v => CycleInput.ofInstr (.push v)) →
    ∃ t, SafeRun (old.length + new.length + new.length) s t ∧ t.inputs = [] ∧
      contents t = old.drop new.length ++ new

/-- CLEAR is idempotent, and after it the registers equal those after a reset step; the two differ at most
in the observation (40_queue_ops.md R65, 70_reset_and_hazards.md R112). -/
def Obligations.ClearTwiceAndResetAgree : Prop :=
  ∀ s t : State, exec .clear s = .next t →
    (∃ u, exec .clear t = .next u ∧ SameController t u) ∧
    (∃ u, resetCycle s = .next u ∧ SameController t u)

/-! ### What cannot be seen -/

/-- `tcur` has no observable effect while `trem == 0` (10_state.md R16): two machines that differ only there
show the same outputs in every run and stop alike. -/
def Obligations.CursorUnseenWithoutTraversal : Prop :=
  ∀ (s : State) (cursor n : Nat), s.trem = 0 →
    match Host.Core.run Sys2Proof.core n s, Host.Core.run Sys2Proof.core n { s with tcur := cursor } with
    | .next t, .next u => u = { t with tcur := u.tcur } ∧ (t.trem ≠ 0 → u.tcur = t.tcur)
    | .fault (.uninit t), .fault (.uninit u) => u = { t with tcur := u.tcur }
    | .fault (.freeSlotRead a), .fault (.freeSlotRead b) => a = b
    | .fault (.slotHoldsNoValue a), .fault (.slotHoldsNoValue b) => a = b
    | .refused q, .refused r => q = r
    | _, _ => False

/-- What a free slot holds is never observable (20_memory.md R46): two machines of the invariant that agree
on the registers and on every valid slot show the same outputs in every run and stop alike. -/
def Obligations.FreeSlotsUnseen : Prop :=
  ∀ (s : State) (m : Memory) (n : Nat), Inv s → Memory.wf s.params m → s.init = true →
    (∀ i, i < s.count → m.read (slotAt s i) = s.storage.read (slotAt s i)) →
    match Host.Core.run Sys2Proof.core n s, Host.Core.run Sys2Proof.core n { s with storage := m } with
    | .next t, .next u => u = { t with storage := u.storage } ∧
        ∀ i, i < t.count → u.storage.read (slotAt t i) = t.storage.read (slotAt t i)
    | .refused q, .refused r => q = r
    | _, _ => False

/-- No output depends on `wdata`, and of the registers none does: two PUSH cycles that differ only in the
element show the same outputs and leave the same registers (10_state.md R28). -/
def Obligations.OutputsIgnoreWdata : Prop :=
  ∀ (s t u : State) (v w : Elem), exec (.push v) s = .next t → exec (.push w) s = .next u →
    t.trace = u.trace ∧ t.init = u.init ∧ t.head = u.head ∧ t.tail = u.tail ∧ t.count = u.count ∧
    t.tcur = u.tcur ∧ t.trem = u.trem
end

