-- ==== Sys2Proof/Laws/State.lean ====
section
/-! SUPPORT. One lemma per field per named update of State. -/

namespace Sys2Proof.Machine

section Record
variable (s : State) (o : Observation)

@[simp] theorem State.record_params : (s.record o).params = s.params := rfl
@[simp] theorem State.record_init : (s.record o).init = s.init := rfl
@[simp] theorem State.record_head : (s.record o).head = s.head := rfl
@[simp] theorem State.record_tail : (s.record o).tail = s.tail := rfl
@[simp] theorem State.record_count : (s.record o).count = s.count := rfl
@[simp] theorem State.record_storage : (s.record o).storage = s.storage := rfl
@[simp] theorem State.record_tcur : (s.record o).tcur = s.tcur := rfl
@[simp] theorem State.record_trem : (s.record o).trem = s.trem := rfl
@[simp] theorem State.record_inputs : (s.record o).inputs = s.inputs := rfl
@[simp] theorem State.record_trace : (s.record o).trace = o :: s.trace := rfl

end Record

section AfterReset
variable (s : State)

@[simp] theorem State.afterReset_params : s.afterReset.params = s.params := rfl
@[simp] theorem State.afterReset_init : s.afterReset.init = true := rfl
@[simp] theorem State.afterReset_head : s.afterReset.head = 0 := rfl
@[simp] theorem State.afterReset_tail : s.afterReset.tail = 0 := rfl
@[simp] theorem State.afterReset_count : s.afterReset.count = 0 := rfl
@[simp] theorem State.afterReset_storage : s.afterReset.storage = s.storage := rfl
@[simp] theorem State.afterReset_tcur : s.afterReset.tcur = 0 := rfl
@[simp] theorem State.afterReset_trem : s.afterReset.trem = 0 := rfl
@[simp] theorem State.afterReset_inputs : s.afterReset.inputs = s.inputs := rfl
@[simp] theorem State.afterReset_trace : s.afterReset.trace = s.trace := rfl

end AfterReset

section Present
variable (s : State) (c : CycleInput)

@[simp] theorem State.present_params : (s.present c).params = s.params := rfl
@[simp] theorem State.present_init : (s.present c).init = s.init := rfl
@[simp] theorem State.present_head : (s.present c).head = s.head := rfl
@[simp] theorem State.present_tail : (s.present c).tail = s.tail := rfl
@[simp] theorem State.present_count : (s.present c).count = s.count := rfl
@[simp] theorem State.present_storage : (s.present c).storage = s.storage := rfl
@[simp] theorem State.present_tcur : (s.present c).tcur = s.tcur := rfl
@[simp] theorem State.present_trem : (s.present c).trem = s.trem := rfl
@[simp] theorem State.present_inputs : (s.present c).inputs = c :: s.inputs.drop 1 := rfl
@[simp] theorem State.present_trace : (s.present c).trace = s.trace := rfl

end Present

section Observe
variable (s : State) (r : Response)

@[simp] theorem observe_response : (observe s r).response = r := rfl
@[simp] theorem observe_sizeO : (observe s r).sizeO = sizeO s := rfl
@[simp] theorem observe_emptyO : (observe s r).emptyO = emptyO s := rfl
@[simp] theorem observe_fullO : (observe s r).fullO = fullO s := rfl

/-- What the outputs show depends on `params`, `init` and `count` alone (42_status_outputs.md R84). -/
theorem observe_congr {s t : State} (hp : t.params = s.params) (hi : t.init = s.init)
    (hc : t.count = s.count) (r : Response) : observe t r = observe s r := by
  simp [observe, sizeO, emptyO, fullO, whileConstructed, isEmpty, isFull, hp, hi, hc]

end Observe

@[simp] theorem isEmpty_eq_true (s : State) : isEmpty s = true ↔ s.count = 0 := by simp [isEmpty]

@[simp] theorem isFull_eq_true (s : State) : isFull s = true ↔ s.count = s.params.capacity := by
  simp [isFull]

end Sys2Proof.Machine
end

