-- ==== Sys2Proof/Laws/Memory.lean ====
section
/-! SUPPORT. The laws of the storage: read after write, the canonical form, and the slots a state can
reach. -/

namespace Sys2Proof.Machine

@[simp] theorem Memory.read_nil (a : Nat) : Memory.read [] a = none := rfl

theorem Memory.read_cons (b : Nat) (v : Elem) (m : Memory) (a : Nat) :
    Memory.read ((b, v) :: m) a = if b = a then some v else Memory.read m a := rfl

/-- A slot written holds the value written (20_memory.md R33). -/
@[simp] theorem Memory.read_write_same (m : Memory) (a : Nat) (v : Elem) :
    (m.write a v).read a = some v := by
  induction m with
  | nil => simp [Memory.write, Memory.read]
  | cons c m ih =>
    obtain ⟨b, w⟩ := c
    simp only [Memory.write]
    split
    · simp [Memory.read]
    · split
      · simp [Memory.read]
      · rename_i h
        simp [Memory.read, Ne.symm h, ih]

/-- A write leaves every other slot alone (20_memory.md R33). -/
theorem Memory.read_write_other (m : Memory) {a b : Nat} (v : Elem) (h : b ≠ a) :
    (m.write a v).read b = m.read b := by
  induction m with
  | nil => simp [Memory.write, Memory.read, Ne.symm h]
  | cons c m ih =>
    obtain ⟨d, w⟩ := c
    simp only [Memory.write]
    split
    · simp [Memory.read, Ne.symm h]
    · split
      · rename_i hd
        subst hd
        simp [Memory.read, Ne.symm h]
      · simp [Memory.read, ih]

theorem Memory.read_write (m : Memory) (a b : Nat) (v : Elem) :
    (m.write a v).read b = if b = a then some v else m.read b := by
  split
  · subst b; simp
  · exact Memory.read_write_other m v ‹_›

theorem memWrite_read (s : State) (a b : Nat) (v : Elem) :
    (memWrite s a v).read b = if b = a then some v else s.storage.read b :=
  Memory.read_write s.storage a b v

/-- Every entry of a written memory is the new one or an old one. -/
theorem Memory.mem_write {m : Memory} {a : Nat} {v : Elem} {c : Nat × Elem}
    (h : c ∈ m.write a v) : c = (a, v) ∨ c ∈ m := by
  induction m with
  | nil => simpa [Memory.write] using h
  | cons d m ih =>
    obtain ⟨b, w⟩ := d
    simp only [Memory.write] at h
    split at h
    · simpa using h
    · split at h
      · rcases List.mem_cons.1 h with h | h
        · exact .inl h
        · exact .inr (List.mem_cons_of_mem _ h)
      · rcases List.mem_cons.1 h with h | h
        · exact .inr (h ▸ List.mem_cons_self)
        · exact (ih h).imp id (List.mem_cons_of_mem _)

theorem Memory.sorted_write {m : Memory} (h : m.Pairwise (fun c d => c.1 < d.1)) (a : Nat) (v : Elem) :
    (m.write a v).Pairwise (fun c d => c.1 < d.1) := by
  induction m with
  | nil => simp [Memory.write]
  | cons d m ih =>
    obtain ⟨b, w⟩ := d
    have hb := (List.pairwise_cons.1 h).1
    have hm := (List.pairwise_cons.1 h).2
    simp only [Memory.write]
    split
    · rename_i hab
      refine List.pairwise_cons.2 ⟨fun c hc => ?_, h⟩
      rcases List.mem_cons.1 hc with rfl | hc
      · exact hab
      · exact lt_trans hab (hb c hc)
    · split
      · rename_i hab
        subst hab
        exact List.pairwise_cons.2 ⟨hb, hm⟩
      · refine List.pairwise_cons.2 ⟨fun c hc => ?_, ih hm⟩
        rcases Memory.mem_write hc with rfl | hc
        · show b < a
          omega
        · exact hb c hc

theorem Memory.wf_nil (p : Params) : Memory.wf p [] := by simp [Memory.wf]

/-- A write of a `DW`-bit element to a slot that exists keeps the canonical form. -/
theorem Memory.wf_write {p : Params} {m : Memory} (h : Memory.wf p m) {a : Nat} {v : Elem}
    (ha : a < p.capacity) (hv : v < 2 ^ p.dw) : Memory.wf p (m.write a v) := by
  refine ⟨Memory.sorted_write h.1 a v, fun c hc => ?_⟩
  rcases Memory.mem_write hc with rfl | hc
  · exact ⟨ha, hv⟩
  · exact h.2 c hc

theorem Memory.mem_of_read {m : Memory} {a : Nat} {v : Elem} (h : m.read a = some v) : (a, v) ∈ m := by
  induction m with
  | nil => simp at h
  | cons d m ih =>
    obtain ⟨b, w⟩ := d
    rw [Memory.read_cons] at h
    split at h
    · simp_all
    · exact List.mem_cons_of_mem _ (ih h)

/-- Only slots that exist hold values, and the values are `DW` bits wide. -/
theorem Memory.wf_read {p : Params} {m : Memory} (h : Memory.wf p m) {a : Nat} {v : Elem}
    (hr : m.read a = some v) : a < p.capacity ∧ v < 2 ^ p.dw :=
  h.2 _ (Memory.mem_of_read hr)

theorem Memory.read_eq_none_of_lt {b : Nat} {m : Memory} (h : ∀ c ∈ m, b < c.1) : m.read b = none := by
  cases hr : m.read b with
  | none => rfl
  | some v => exact absurd (h _ (Memory.mem_of_read hr)) (lt_irrefl b)

/-- Equal memories are equal data: canonical memories that read alike are the same list. -/
theorem Memory.eq_of_read_eq {m n : Memory} (hm : m.Pairwise (fun c d => c.1 < d.1))
    (hn : n.Pairwise (fun c d => c.1 < d.1)) (h : ∀ a, m.read a = n.read a) : m = n := by
  induction m generalizing n with
  | nil =>
    cases n with
    | nil => rfl
    | cons d n => obtain ⟨b, w⟩ := d; simpa [Memory.read] using h b
  | cons c m ih =>
    obtain ⟨a, v⟩ := c
    have ha := (List.pairwise_cons.1 hm).1
    cases n with
    | nil => simpa [Memory.read] using h a
    | cons d n =>
      obtain ⟨b, w⟩ := d
      have hb := (List.pairwise_cons.1 hn).1
      have e1 := h a
      have e2 := h b
      simp only [Memory.read_cons] at e1 e2
      have hab : a = b := by
        by_contra hne
        rcases Nat.lt_or_gt_of_ne hne with hlt | hlt
        · rw [if_neg (Ne.symm hne), if_pos trivial,
            Memory.read_eq_none_of_lt (fun c hc => lt_trans hlt (hb c hc))] at e1
          simp at e1
        · rw [if_neg hne, if_pos trivial,
            Memory.read_eq_none_of_lt (fun c hc => lt_trans hlt (ha c hc))] at e2
          simp at e2
      subst hab
      simp only [if_true, Option.some.injEq] at e1
      subst e1
      congr 1
      refine ih (List.pairwise_cons.1 hm).2 (List.pairwise_cons.1 hn).2 fun x => ?_
      have e := h x
      simp only [Memory.read_cons] at e
      split at e
      · rename_i hx
        subst hx
        rw [Memory.read_eq_none_of_lt ha, Memory.read_eq_none_of_lt hb]
      · exact e

/-- A slot is valid when it is one of the `count` slots from `head` on (10_state.md R21). -/
theorem slotValid_iff (s : State) (a : Nat) :
    slotValid s a = true ↔ ∃ i, i < s.count ∧ slotAt s i = a := by
  simp [slotValid]

/-- The oldest element's slot is valid in a non-empty queue (10_state.md R21). -/
theorem slotValid_head {s : State} (hc : 0 < s.count) (hh : s.head < s.params.capacity) :
    slotValid s s.head = true :=
  (slotValid_iff s s.head).2 ⟨0, hc, by simp [slotAt, Nat.mod_eq_of_lt hh]⟩

end Sys2Proof.Machine
end

