-- ==== Sys2Proof/Laws/Ops.lean ====
section
/-! SUPPORT. What each shared operation can do: one lemma per operation for a next state, and the plain case
of each guard. -/

namespace Sys2Proof.Machine

/-! ### The wrapping increment and the widths -/

theorem incWrap_eq_mod {capacity p : Nat} (h : p < capacity) : incWrap capacity p = (p + 1) % capacity := by
  unfold incWrap
  split
  · rw [show p + 1 = capacity by omega, Nat.mod_self]
  · rw [Nat.mod_eq_of_lt (by omega)]

theorem incWrap_lt {capacity p : Nat} (h : p < capacity) : incWrap capacity p < capacity := by
  rw [incWrap_eq_mod h]
  exact Nat.mod_lt _ (by omega)

theorem le_two_pow_clog2From {n fuel : Nat} : ∀ {k : Nat}, n ≤ 2 ^ (k + fuel) → n ≤ 2 ^ clog2From n k fuel := by
  induction fuel with
  | zero => exact id
  | succ f ih =>
    intro k h
    simp only [clog2From]
    split
    · assumption
    · exact ih (by rwa [show k + 1 + f = k + (f + 1) by omega])

/-- `clog2` bits hold every value below `n` (00_scope.md R7). -/
theorem le_two_pow_clog2 (n : Nat) : n ≤ 2 ^ clog2 n :=
  le_two_pow_clog2From (by simpa using Nat.lt_two_pow_self.le)

theorem clog2From_le {n j fuel : Nat} (hj : n ≤ 2 ^ j) : ∀ {k : Nat}, k ≤ j → clog2From n k fuel ≤ j := by
  induction fuel with
  | zero => exact id
  | succ f ih =>
    intro k h
    simp only [clog2From]
    split
    · exact h
    · rename_i hn
      exact ih (by rcases Nat.lt_or_eq_of_le h with h | rfl
                   · exact h
                   · exact absurd hj hn)

/-- No smaller width does (00_scope.md R7: "the smallest that hold the ranges"). -/
theorem clog2_le {n j : Nat} (hj : n ≤ 2 ^ j) : clog2 n ≤ j := clog2From_le hj (Nat.zero_le _)

/-! ### Raising -/

theorem raise_uninit (s : State) :
    raise .uninit s = .fault (.uninit (s.record (observe s (noData .uninit)))) := rfl

/-- FULL, EMPTY, ILLEGAL and END are ordinary steps (60_exceptions.md R109). -/
theorem raise_of_ne {x : Status} (h : x ≠ .uninit) (s : State) : raise x s = respond s (noData x) s := by
  simp [raise, h]

/-! ### Guards: the case in which a command goes on -/

@[simp] theorem whenInit_of_init {s : State} (h : s.init = true) (k : Result) : whenInit s k = k := by
  simp [whenInit, h]

theorem whenInit_of_not_init {s : State} (h : s.init = false) (k : Result) :
    whenInit s k = .fault (.uninit (s.record (observe s (noData .uninit)))) := by
  simp [whenInit, h, raise]

@[simp] theorem withAddr_of_lt {s : State} {p : Nat} (h : p < s.params.capacity) (k : Result) :
    withAddr s p k = k := by simp [withAddr, h]

@[simp] theorem withCounter_of_le {s : State} {c : Nat} (h : c ≤ s.params.capacity) (k : Result) :
    withCounter s c k = k := by simp [withCounter, h]

@[simp] theorem withWdata_of_lt {s : State} {v : Elem} (h : v < 2 ^ s.params.dw) (k : Elem → Result) :
    withWdata s v k = k v := by simp [withWdata, h]

theorem memRead_of_valid {s : State} {a : Nat} {v : Elem} (ha : a < s.params.capacity)
    (hv : slotValid s a = true) (hr : s.storage.read a = some v) (k : Elem → Result) :
    memRead s a k = k v := by
  simp [memRead, ha, hv, hr]

/-! ### Guards: what a next state says -/

theorem whenInit_next {s t : State} {k : Result} (h : whenInit s k = .next t) :
    s.init = true ∧ k = .next t := by
  unfold whenInit at h
  split at h
  · exact ⟨‹_›, h⟩
  · simp [raise] at h

theorem withAddr_next {s t : State} {p : Nat} {k : Result} (h : withAddr s p k = .next t) :
    p < s.params.capacity ∧ k = .next t := by
  unfold withAddr at h
  split at h
  · exact ⟨‹_›, h⟩
  · cases h

theorem withCounter_next {s t : State} {c : Nat} {k : Result} (h : withCounter s c k = .next t) :
    c ≤ s.params.capacity ∧ k = .next t := by
  unfold withCounter at h
  split at h
  · exact ⟨‹_›, h⟩
  · cases h

theorem withWdata_next {s t : State} {v : Elem} {k : Elem → Result} (h : withWdata s v k = .next t) :
    v < 2 ^ s.params.dw ∧ k v = .next t := by
  unfold withWdata at h
  split at h
  · exact ⟨‹_›, h⟩
  · cases h

theorem memRead_next {s t : State} {a : Nat} {k : Elem → Result} (h : memRead s a k = .next t) :
    ∃ v, a < s.params.capacity ∧ slotValid s a = true ∧ s.storage.read a = some v ∧ k v = .next t := by
  obtain ⟨ha, h⟩ := withAddr_next h
  split at h
  · split at h
    · exact ⟨_, ha, ‹_›, ‹_›, h⟩
    · cases h
  · cases h

theorem respond_next {s s' t : State} {r : Response} (h : respond s r s' = .next t) :
    t = s'.record (observe s r) := by
  simpa [respond] using h.symm

theorem raise_next {x : Status} {s t : State} (h : raise x s = .next t) :
    x ≠ .uninit ∧ t = s.record (observe s (noData x)) := by
  unfold raise at h
  split at h
  · cases h
  · exact ⟨‹_›, respond_next h⟩

/-! ### Guards: what an UNINIT fault says -/

theorem whenInit_uninit {s t : State} {k : Result} (h : whenInit s k = .fault (.uninit t)) :
    (s.init = false ∧ t = s.record (observe s (noData .uninit))) ∨
      (s.init = true ∧ k = .fault (.uninit t)) := by
  unfold whenInit at h
  split at h
  · exact .inr ⟨‹_›, h⟩
  · rename_i hi
    exact .inl ⟨by simpa using hi, by simpa [raise_uninit] using h.symm⟩

theorem withAddr_uninit {s t : State} {p : Nat} {k : Result} (h : withAddr s p k = .fault (.uninit t)) :
    k = .fault (.uninit t) := by
  unfold withAddr at h
  split at h
  · exact h
  · cases h

theorem withCounter_uninit {s t : State} {c : Nat} {k : Result} (h : withCounter s c k = .fault (.uninit t)) :
    k = .fault (.uninit t) := by
  unfold withCounter at h
  split at h
  · exact h
  · cases h

theorem withWdata_uninit {s t : State} {v : Elem} {k : Elem → Result}
    (h : withWdata s v k = .fault (.uninit t)) : k v = .fault (.uninit t) := by
  unfold withWdata at h
  split at h
  · exact h
  · cases h

theorem respond_ne_uninit (s s' t : State) (r : Response) : respond s r s' ≠ .fault (.uninit t) := by
  simp [respond]

theorem raise_ne_uninit {x : Status} (hx : x ≠ .uninit) (s t : State) : raise x s ≠ .fault (.uninit t) := by
  simp [raise_of_ne hx, respond]

theorem memRead_uninit {s t : State} {a : Nat} {k : Elem → Result}
    (h : memRead s a k = .fault (.uninit t)) : ∃ v, k v = .fault (.uninit t) := by
  unfold memRead withAddr at h
  split at h
  · split at h
    · split at h
      · exact ⟨_, h⟩
      · simp at h
    · simp at h
  · simp at h

end Sys2Proof.Machine
end

