-- ==== Sys2Proof/Laws/Exec.lean ====
section
/-! SUPPORT. What each command, a cycle and a step can do: one inversion lemma each. -/

namespace Sys2Proof.Machine

theorem execNop_next {s t : State} (h : execNop s = .next t) : t = s.record (observe s okNoData) :=
  respond_next h

theorem execPush_next {v : Elem} {s t : State} (h : execPush v s = .next t) :
    v < 2 ^ s.params.dw ∧ s.init = true ∧
      ((s.count = s.params.capacity ∧ t = s.record (observe s (noData .full))) ∨
       (s.count < s.params.capacity ∧ s.tail < s.params.capacity ∧
        t = State.record
          { s with
            storage := memWrite s s.tail v
            tail := incWrap s.params.capacity s.tail, count := s.count + 1, trem := 0 }
          (observe s okNoData))) := by
  obtain ⟨hv, h⟩ := withWdata_next h
  obtain ⟨hi, h⟩ := whenInit_next h
  obtain ⟨hc, h⟩ := withCounter_next h
  split at h
  · rename_i hf
    exact ⟨hv, hi, .inl ⟨by simpa using hf, (raise_next h).2⟩⟩
  · rename_i hf
    obtain ⟨ht, h⟩ := withAddr_next h
    refine ⟨hv, hi, .inr ⟨?_, ht, respond_next h⟩⟩
    simp at hf
    omega

theorem execPop_next {s t : State} (h : execPop s = .next t) :
    s.init = true ∧
      ((s.count = 0 ∧ t = s.record (observe s (noData .empty))) ∨
       (0 < s.count ∧ s.count ≤ s.params.capacity ∧ s.head < s.params.capacity ∧
        t = State.record
          { s with head := incWrap s.params.capacity s.head, count := s.count - 1, trem := 0 }
          (observe s okNoData))) := by
  obtain ⟨hi, h⟩ := whenInit_next h
  obtain ⟨hc, h⟩ := withCounter_next h
  split at h
  · rename_i he
    exact ⟨hi, .inl ⟨by simpa using he, (raise_next h).2⟩⟩
  · rename_i he
    obtain ⟨hh, h⟩ := withAddr_next h
    exact ⟨hi, .inr ⟨Nat.pos_of_ne_zero (by simpa using he), hc, hh, respond_next h⟩⟩

theorem execFront_next {s t : State} (h : execFront s = .next t) :
    s.init = true ∧
      ((s.count = 0 ∧ t = s.record (observe s (noData .empty))) ∨
       (∃ v, 0 < s.count ∧ s.head < s.params.capacity ∧ s.storage.read s.head = some v ∧
        t = s.record (observe s (okData v)))) := by
  obtain ⟨hi, h⟩ := whenInit_next h
  obtain ⟨hc, h⟩ := withCounter_next h
  split at h
  · rename_i he
    exact ⟨hi, .inl ⟨by simpa using he, (raise_next h).2⟩⟩
  · rename_i he
    obtain ⟨v, ha, _, hr, h⟩ := memRead_next h
    exact ⟨hi, .inr ⟨v, Nat.pos_of_ne_zero (by simpa using he), ha, hr, respond_next h⟩⟩

theorem execClear_next {s t : State} (h : execClear s = .next t) :
    s.init = true ∧
      t = State.record { s with head := 0, tail := 0, count := 0, tcur := 0, trem := 0 }
        (observe s okNoData) := by
  obtain ⟨hi, h⟩ := whenInit_next h
  exact ⟨hi, respond_next h⟩

theorem execTrav_next {s t : State} (h : execTrav s = .next t) :
    s.init = true ∧ s.head < s.params.capacity ∧ s.count ≤ s.params.capacity ∧
      t = State.record { s with tcur := s.head, trem := s.count } (observe s okNoData) := by
  obtain ⟨hi, h⟩ := whenInit_next h
  obtain ⟨hh, h⟩ := withAddr_next h
  obtain ⟨hc, h⟩ := withCounter_next h
  exact ⟨hi, hh, hc, respond_next h⟩

theorem execTnext_next {s t : State} (h : execTnext s = .next t) :
    s.init = true ∧
      ((s.trem = 0 ∧ t = s.record (observe s (noData .seqEnd))) ∨
       (∃ v, 0 < s.trem ∧ s.tcur < s.params.capacity ∧ s.storage.read s.tcur = some v ∧
        t = State.record { s with tcur := incWrap s.params.capacity s.tcur, trem := s.trem - 1 }
          (observe s (okData v)))) := by
  obtain ⟨hi, h⟩ := whenInit_next h
  obtain ⟨hc, h⟩ := withCounter_next h
  split at h
  · exact ⟨hi, .inl ⟨‹_›, (raise_next h).2⟩⟩
  · rename_i he
    obtain ⟨v, ha, _, hr, h⟩ := memRead_next h
    exact ⟨hi, .inr ⟨v, Nat.pos_of_ne_zero he, ha, hr, respond_next h⟩⟩

theorem execIll_next {s t : State} (h : execIll s = .next t) : t = s.record (observe s (noData .illegal)) :=
  (raise_next h).2

theorem resetCycle_next {s t : State} (h : resetCycle s = .next t) :
    t = s.afterReset.record (observe s okNoData) :=
  respond_next h

/-- A cycle with a next state is a reset cycle or executes the command on the port (40_queue_ops.md R60). -/
theorem cycle_next {c : CycleInput} {s t : State} (h : cycle c s = .next t) :
    (c.rst = true ∧ t = s.afterReset.record (observe s okNoData)) ∨
    (c.rst = false ∧ c.wdata < 2 ^ s.params.dw ∧ exec (decodeOp c.op c.wdata) s = .next t) := by
  unfold cycle at h
  split at h
  · exact .inl ⟨‹_›, resetCycle_next h⟩
  · rename_i hr
    unfold decodePort at h
    split at h
    · rename_i i he
      split at he
      · cases he
        exact .inr ⟨by simpa using hr, ‹_›, h⟩
      · cases he
    · cases h

/-- A step with a next state is the cycle at the front of the host's list. -/
theorem step_next {s t : State} (h : step s = .next t) :
    ∃ c rest, s.inputs = c :: rest ∧ cycle c { s with inputs := rest } = .next t := by
  unfold step fetchCycle at h
  split at h
  · cases h
  · rename_i c s' he
    split at he
    · cases he
    · rename_i c' rest hin
      cases he
      exact ⟨_, _, hin, h⟩

theorem step_of_inputs {s : State} {c : CycleInput} {rest : List CycleInput} (h : s.inputs = c :: rest) :
    step s = cycle c { s with inputs := rest } := by
  simp [step, fetchCycle, h]

/-- What a step can do with the input triple `c`: a reset cycle, or the command on the port. -/
theorem step_next_of_inputs {s t : State} {c : CycleInput} {rest : List CycleInput}
    (hin : s.inputs = c :: rest) (h : step s = .next t) :
    (c.rst = true ∧
      t = State.record (State.afterReset { s with inputs := rest }) (observe s okNoData)) ∨
    (c.rst = false ∧ c.wdata < 2 ^ s.params.dw ∧
      exec (decodeOp c.op c.wdata) { s with inputs := rest } = .next t) := by
  rw [step_of_inputs hin] at h
  exact cycle_next h

theorem cycle_of_rst {c : CycleInput} (h : c.rst = true) (s : State) : cycle c s = resetCycle s := by
  simp [cycle, h]

theorem cycle_of_fits {c : CycleInput} {s : State} (h : c.rst = false) (hw : c.wdata < 2 ^ s.params.dw) :
    cycle c s = exec (decodeOp c.op c.wdata) s := by
  simp [cycle, h, decodePort, hw]

end Sys2Proof.Machine
end

