-- ==== Sys2Proof/Laws/PerInstr.lean ====
section
/-! SUPPORT. Statements made per instruction. -/

namespace Sys2Proof.Laws

/-- The `op` field of a command's listing word is its code and the rest is what the assembler drives on
`wdata` (30_encoding.md R54, R56). -/
def WordFields.Statement (i : Instr) : Prop := wordOp (encode i) = opCode i ∧ wordWdata (encode i) = wdataOf i

theorem wordFields_of_shape (w : Nat) (op : BitVec 3) :
    wordOp (w * 8 + op.toNat) = op ∧ wordWdata (w * 8 + op.toNat) = w := by
  have h := op.isLt
  refine ⟨?_, by unfold wordWdata; omega⟩
  apply BitVec.eq_of_toNat_eq
  simp only [wordOp, BitVec.toNat_ofNat]
  omega

theorem WordFields.nop : WordFields.Statement .nop := wordFields_of_shape _ _
theorem WordFields.push (v : Elem) : WordFields.Statement (.push v) := wordFields_of_shape _ _
theorem WordFields.pop : WordFields.Statement .pop := wordFields_of_shape _ _
theorem WordFields.front : WordFields.Statement .front := wordFields_of_shape _ _
theorem WordFields.clear : WordFields.Statement .clear := wordFields_of_shape _ _
theorem WordFields.trav : WordFields.Statement .trav := wordFields_of_shape _ _
theorem WordFields.tnext : WordFields.Statement .tnext := wordFields_of_shape _ _
theorem WordFields.ill : WordFields.Statement .ill := wordFields_of_shape _ _

end Sys2Proof.Laws
end

