-- ==== Sys2Proof/Laws/Run.lean ====
section
/-! SUPPORT. Runs, and the facts of the invariant that claims about runs start from. -/

namespace Sys2Proof.Machine

theorem run_zero (s : State) : Host.Core.run Sys2Proof.core 0 s = .next s := rfl

/-- A run goes on from the state its first step leaves. -/
theorem run_succ_of_next {s t : State} (h : step s = .next t) (n : Nat) :
    Host.Core.run Sys2Proof.core (n + 1) s = Host.Core.run Sys2Proof.core n t := by
  have h' : Sys2Proof.core.step s = .next t := h
  simp only [Host.Core.run, h']

theorem run_succ_of_fault {s : State} {r : Fault} (h : step s = .fault r) (n : Nat) :
    Host.Core.run Sys2Proof.core (n + 1) s = .fault r := by
  have h' : Sys2Proof.core.step s = .fault r := h
  simp only [Host.Core.run, h']

theorem run_succ_of_refused {s : State} {r : Refusal} (h : step s = .refused r) (n : Nat) :
    Host.Core.run Sys2Proof.core (n + 1) s = .refused r := by
  have h' : Sys2Proof.core.step s = .refused r := h
  simp only [Host.Core.run, h']

/-- Runs compose. -/
theorem run_add {s t : State} {m : Nat} (h : SafeRun m s t) (n : Nat) :
    Host.Core.run Sys2Proof.core (m + n) s = Host.Core.run Sys2Proof.core n t := by
  induction m generalizing s with
  | zero =>
    injection h with h
    rw [Nat.zero_add, h]
  | succ m ih =>
    rw [Nat.add_right_comm]
    unfold SafeRun at h
    cases hs : step s with
    | next u =>
      rw [run_succ_of_next hs] at h ⊢
      exact ih h
    | fault r =>
      rw [run_succ_of_fault hs] at h
      cases h
    | refused r =>
      rw [run_succ_of_refused hs] at h
      cases h

/-- The invariant says nothing about the host's list of cycles. -/
theorem Inv.withInputs {s : State} (h : Inv s) (rest : List CycleInput) : Inv { s with inputs := rest } :=
  ⟨h.storage_wf, fun hi =>
    have c := h.constructed hi
    ⟨c.head_lt, c.tail_lt, c.tcur_lt, c.count_le, c.trem_le, c.tail_eq, c.written, c.cursor⟩⟩

/-- In a non-empty constructed queue the slot at `head` holds a value (10_state.md R21). -/
theorem Constructed.read_head {s : State} (h : Constructed s) (hc : 0 < s.count) :
    ∃ v, s.storage.read s.head = some v := by
  have hw := h.written 0 hc
  rw [slotAt, Nat.add_zero, Nat.mod_eq_of_lt h.head_lt] at hw
  exact Option.isSome_iff_exists.1 hw

/-- The cursor of a traversal in progress is at a valid slot that holds a value (10_state.md R22). -/
theorem Constructed.read_cursor {s : State} (h : Constructed s) (hr : 0 < s.trem) :
    ∃ v, s.tcur = slotAt s (s.count - s.trem) ∧ s.count - s.trem < s.count ∧
      s.storage.read s.tcur = some v := by
  have hl := h.trem_le
  have h0 := h.cursor 0 hr
  rw [Nat.add_zero, Nat.add_zero, Nat.mod_eq_of_lt h.tcur_lt] at h0
  have hs : s.tcur = slotAt s (s.count - s.trem) := h0
  have hlt : s.count - s.trem < s.count := by omega
  obtain ⟨v, hv⟩ := Option.isSome_iff_exists.1 (h.written _ hlt)
  exact ⟨v, hs, hlt, by rw [hs]; exact hv⟩

/-- Every entry of a list of reads that all succeed. -/
theorem filterMap_range_getElem? {f : Nat → Option Elem} {n : Nat} (h : ∀ i, i < n → (f i).isSome = true) :
    ((List.range n).filterMap f).length = n ∧
      ∀ i, i < n → ((List.range n).filterMap f)[i]? = f i := by
  induction n with
  | zero => simp
  | succ n ih =>
    obtain ⟨hl, hg⟩ := ih fun i hi => h i (by omega)
    obtain ⟨v, hv⟩ := Option.isSome_iff_exists.1 (h n (by omega))
    have e : (List.range (n + 1)).filterMap f = (List.range n).filterMap f ++ [v] := by
      simp [List.range_succ, List.filterMap_append, hv]
    rw [e]
    refine ⟨by simp [hl], fun i hi => ?_⟩
    rcases Nat.lt_or_ge i n with hlt | hge
    · rw [List.getElem?_append_left (by omega), hg i hlt]
    · have hin : i = n := by omega
      subst hin
      rw [List.getElem?_append_right (by omega), hl, Nat.sub_self, hv]
      rfl

/-- The queue of a constructed state, element by element (10_state.md R21). -/
theorem Constructed.contents_getElem? {s : State} (h : Constructed s) :
    (contents s).length = s.count ∧
      ∀ i, i < s.count → (contents s)[i]? = s.storage.read (slotAt s i) :=
  filterMap_range_getElem? h.written

end Sys2Proof.Machine
end

