-- ==== Sys2Proof/Tests/Slice0.lean ====
section
/-! SUPPORT. The model's own tests, and for every statement with hypotheses a concrete witness that meets
them. Expected results are those of 95_test_vectors.md (V<n>, P<n>, B<n>) or of the rule named. -/

namespace Sys2Proof.Tests

open Sys2Proof.Machine

/-! ### States of the test vectors, with `CAPACITY = 4` and `DW = 32` unless said otherwise -/

def cap4 : Params := { capacity := 4, dw := 32 }
def cap1 : Params := { capacity := 1, dw := 32 }

/-- `(1, head, tail, count, storage, tcur, trem)`. -/
def mk (p : Params) (head tail count : Nat) (m : Memory) (tcur trem : Nat) (inputs : List CycleInput := []) :
    State :=
  { params := p, init := true, head := head, tail := tail, count := count, storage := m, tcur := tcur
    trem := trem, inputs := inputs, trace := [] }

/-- Full, a traversal half way: the state of V1. -/
def full4 (inputs : List CycleInput := []) : State :=
  mk cap4 1 1 4 [(0, 5), (1, 2), (2, 3), (3, 4)] 3 2 inputs

/-- Three elements, a traversal just started, a stale element in slot 1: the state before V34. -/
def part4 (inputs : List CycleInput := []) : State :=
  mk cap4 2 1 3 [(0, 6), (1, 2), (2, 4), (3, 5)] 2 3 inputs

/-- Empty with pointers not zero and a stale element: the state of V15. -/
def empty4 (inputs : List CycleInput := []) : State := mk cap4 2 2 0 [(1, 5)] 0 0 inputs

/-- One slot, full (program P6). -/
def full1 (inputs : List CycleInput := []) : State := mk cap1 0 0 1 [(0, 5)] 0 1 inputs

/-- Not constructed; the registers hold patterns that mean nothing. -/
def cold4 (inputs : List CycleInput := []) : State :=
  { mk cap4 3 0 7 [] 2 5 inputs with init := false }

/-- What a test looks at after one step: registers, storage, and the responses given. -/
structure Seen where
  head : Nat
  tail : Nat
  count : Nat
  storage : List (Nat × Nat)
  tcur : Nat
  trem : Nat
  responses : List Response
deriving DecidableEq, Repr

def view : Result → Option Seen
  | .next t => some ⟨t.head, t.tail, t.count, t.storage, t.tcur, t.trem, t.trace.map (·.response)⟩
  | _ => none

/-! ### WellFormed, and the words of 95_test_vectors.md B6 -/

theorem test_wellFormed_refuses_wide_push : WellFormed cap4 (.push (2 ^ 32)) = false := by decide
theorem test_wellFormed_push_allOnes : WellFormed cap4 (.push 0xFFFFFFFF) = true := by decide

theorem test_decode_nop : decodeWord Config.default 0b000 = .ok .nop := by decide
theorem test_decode_push : decodeWord Config.default 0b101001 = .ok (.push 0b101) := by decide
theorem test_decode_pop : decodeWord Config.default 0b1010 = .ok .pop := by decide
theorem test_decode_front : decodeWord Config.default 0b011 = .ok .front := by decide
theorem test_decode_clear : decodeWord Config.default 0b100 = .ok .clear := by decide
theorem test_decode_trav : decodeWord Config.default 0b101 = .ok .trav := by decide
theorem test_decode_tnext : decodeWord Config.default 0b110 = .ok .tnext := by decide
theorem test_decode_ill : decodeWord Config.default 0b1111 = .ok .ill := by decide
theorem test_decode_rejects_wide_word :
    decodeWord Config.default 0x800000001 = .error .wdataTooWide := by decide
theorem test_decodeTableWord_tnext : decodeTableWord 8 0x6 = some .tnext := by decide
theorem test_encode_push_allOnes : encode (.push 0xFFFFFFFF) = 0x7FFFFFFF9 := by decide

/-! ### Single steps (95_test_vectors.md B1, B2, B4) -/

theorem test_nop_V1 :
    view (exec .nop (full4)) =
      some ⟨1, 1, 4, [(0, 5), (1, 2), (2, 3), (3, 4)], 3, 2, [⟨.ok, false, 0⟩]⟩ := by decide
theorem test_push_V4 :
    view (exec (.push 9) (mk cap4 2 3 1 [(0, 1), (1, 2), (2, 7)] 0 0)) =
      some ⟨2, 0, 2, [(0, 1), (1, 2), (2, 7), (3, 9)], 0, 0, [⟨.ok, false, 0⟩]⟩ := by decide
theorem test_push_V6 :
    view (exec (.push 9) (mk cap4 2 2 4 [(0, 6), (1, 9), (2, 4), (3, 5)] 3 2)) =
      some ⟨2, 2, 4, [(0, 6), (1, 9), (2, 4), (3, 5)], 3, 2, [⟨.full, false, 0⟩]⟩ := by decide
theorem test_pop_V9 :
    view (exec .pop (mk cap4 3 1 2 [(0, 8), (3, 7)] 0 0)) =
      some ⟨0, 1, 1, [(0, 8), (3, 7)], 0, 0, [⟨.ok, false, 0⟩]⟩ := by decide
theorem test_pop_V11 :
    view (exec .pop (mk cap4 2 2 0 [(1, 5)] 0 0)) =
      some ⟨2, 2, 0, [(1, 5)], 0, 0, [⟨.empty, false, 0⟩]⟩ := by decide
theorem test_front_V14 :
    view (exec .front (mk cap4 2 2 4 [(0, 6), (1, 9), (2, 4), (3, 5)] 0 0)) =
      some ⟨2, 2, 4, [(0, 6), (1, 9), (2, 4), (3, 5)], 0, 0, [⟨.ok, true, 4⟩]⟩ := by decide
theorem test_front_V15 :
    view (exec .front (empty4)) = some ⟨2, 2, 0, [(1, 5)], 0, 0, [⟨.empty, false, 0⟩]⟩ := by decide
theorem test_clear_V18 :
    view (exec .clear (full4)) =
      some ⟨0, 0, 0, [(0, 5), (1, 2), (2, 3), (3, 4)], 0, 0, [⟨.ok, false, 0⟩]⟩ := by decide
theorem test_trav_V32 :
    view (exec .trav (mk cap4 1 1 4 [(0, 5), (1, 2), (2, 3), (3, 4)] 0 0)) =
      some ⟨1, 1, 4, [(0, 5), (1, 2), (2, 3), (3, 4)], 1, 4, [⟨.ok, false, 0⟩]⟩ := by decide
theorem test_trav_V31 :
    view (exec .trav (empty4)) = some ⟨2, 2, 0, [(1, 5)], 2, 0, [⟨.ok, false, 0⟩]⟩ := by decide
theorem test_tnext_V35 :
    view (exec .tnext (mk cap4 2 1 3 [(0, 6), (1, 2), (2, 4), (3, 5)] 3 2)) =
      some ⟨2, 1, 3, [(0, 6), (1, 2), (2, 4), (3, 5)], 0, 1, [⟨.ok, true, 5⟩]⟩ := by decide
theorem test_tnext_V37 :
    view (exec .tnext (mk cap4 2 1 3 [(0, 6), (1, 2), (2, 4), (3, 5)] 1 0)) =
      some ⟨2, 1, 3, [(0, 6), (1, 2), (2, 4), (3, 5)], 1, 0, [⟨.seqEnd, false, 0⟩]⟩ := by decide
theorem test_ill_V62 :
    view (exec .ill (cold4)) = some ⟨3, 0, 7, [], 2, 5, [⟨.illegal, false, 0⟩]⟩ := by decide
theorem test_clear_V21 :
    exec .clear (cold4) =
      .fault (.uninit { cold4 with trace := [⟨⟨.uninit, false, 0⟩, none, none, none⟩] }) := by rfl
theorem test_reset_V52 :
    view (step (full4 [⟨true, 7, 0⟩])) =
      some ⟨0, 0, 0, [(0, 5), (1, 2), (2, 3), (3, 4)], 0, 0, [⟨.ok, false, 0⟩]⟩ := by decide
theorem test_withFetchWord_word_is_first_after_reset :
    view (step (State.reset.withFetchWord 8 0xF)) = some ⟨0, 0, 0, [], 0, 0, [⟨.illegal, false, 0⟩]⟩ := by
  decide

/-- A read of a free slot is a fault (20_memory.md R46): slot 1 holds a stale element. -/
theorem test_free_slot_read_faults :
    memRead (part4) 1 (fun v => respond (part4) (okData v) (part4)) = .fault (.freeSlotRead 1) := by rfl
theorem test_end_of_run : step (full4 []) = .refused .endOfRun := by rfl

/-! ### Outputs and arithmetic (95_test_vectors.md B3, B5, B6) -/

/-- The timing vector of B3: in the cycle of the PUSH that fills the buffer the outputs show 3. -/
theorem test_outputs_before_edge :
    (observe (mk cap4 0 3 3 [(0, 1), (1, 2), (2, 3)] 0 0) okNoData) =
      ⟨⟨.ok, false, 0⟩, some 3, some false, some false⟩ := by decide
theorem test_outputs_capacity_one : observe (full1) okNoData =
    ⟨⟨.ok, false, 0⟩, some 1, some false, some true⟩ := by decide
theorem test_status_priority :
    statusOut (cold4) ⟨true, 7, 0⟩ = .ok ∧ statusOut (cold4) ⟨false, 7, 0⟩ = .illegal ∧
      statusOut (cold4) ⟨false, 1, 0⟩ = .uninit ∧ statusOut (full4) ⟨false, 1, 0⟩ = .full ∧
      statusOut (empty4) ⟨false, 3, 0⟩ = .empty ∧ statusOut (empty4) ⟨false, 6, 0⟩ = .seqEnd := by decide
theorem test_incWrap_capacity_three : (incWrap 3 1, incWrap 3 2, incWrap 1 0, incWrap 64 63) = (2, 0, 0, 0) := by
  decide
theorem test_widths :
    (addrWidth Config.default, counterWidth Config.default, addrWidth cap4, counterWidth cap4,
      addrWidth cap1, counterWidth cap1) = (6, 7, 2, 3, 1, 1) := by decide

/-! ### Assembler (30_encoding.md R54, R55) -/

theorem test_parse_push_hex :
    parseLine 32 ['P', 'U', 'S', 'H', ' ', '0', 'x', '1', 'F', ' ', ';', ' ', 'x'] =
      some (some (.command (.push 31))) := by decide
theorem test_parse_push_negative :
    parseLine 32 ['P', 'U', 'S', 'H', ' ', '-', '1'] = some (some (.command (.push 0xFFFFFFFF))) := by decide
theorem test_parse_init : parseLine 32 ['I', 'N', 'I', 'T', ' ', '7', ' ', '1', '0'] =
    some (some (.init [7, 10])) := by decide
theorem test_parse_ill : parseLine 32 ['.', 'I', 'L', 'L'] = some (some (.command .ill)) := by decide
theorem test_parse_rejects_lower_case : parseLine 32 ['p', 'o', 'p'] = none := by decide
theorem test_parse_comment_line : parseLine 32 [' ', ';', 'P', 'O', 'P'] = some none := by decide

/-! ### States of the invariant -/

theorem full4_inv (inputs : List CycleInput) : Inv (full4 inputs) :=
  Inv.withInputs (s := full4 []) ⟨by decide, fun _ => ⟨by decide, by decide, by decide, by decide, by decide,
    by decide, by decide, by decide⟩⟩ inputs
theorem part4_inv (inputs : List CycleInput) : Inv (part4 inputs) :=
  Inv.withInputs (s := part4 []) ⟨by decide, fun _ => ⟨by decide, by decide, by decide, by decide, by decide,
    by decide, by decide, by decide⟩⟩ inputs
theorem empty4_inv (inputs : List CycleInput) : Inv (empty4 inputs) :=
  Inv.withInputs (s := empty4 []) ⟨by decide, fun _ => ⟨by decide, by decide, by decide, by decide, by decide,
    by decide, by decide, by decide⟩⟩ inputs
theorem full1_inv (inputs : List CycleInput) : Inv (full1 inputs) :=
  Inv.withInputs (s := full1 []) ⟨by decide, fun _ => ⟨by decide, by decide, by decide, by decide, by decide,
    by decide, by decide, by decide⟩⟩ inputs
theorem cold4_inv (inputs : List CycleInput) : Inv (cold4 inputs) :=
  ⟨Memory.wf_nil _, fun h => by cases h⟩

/-! ### Witnesses: for every statement with hypotheses, data that meets all of them together -/

/-- The largest operand. -/
theorem witness_DecodeEncodeRoundTrip : WellFormed cap4 (.push (2 ^ 32 - 1)) = true := by decide
/-- The largest word of the port and the least word it cannot carry. -/
theorem witness_EveryPortWordIsOneCommand :
    2 ^ 35 - 1 < 2 ^ (cap4.dw + 3) ∧ 2 ^ (cap4.dw + 3) ≤ 2 ^ 35 := by decide
theorem witness_StepRunsDecodedCommand :
    (part4 [⟨false, 1, 2 ^ 32 - 1⟩]).inputs = ⟨false, 1, 2 ^ 32 - 1⟩ :: [] ∧
      decodePort (part4 []).params 1 (2 ^ 32 - 1) = .ok (.push (2 ^ 32 - 1)) := ⟨rfl, by decide⟩
theorem witness_ResetCycleEffect :
    (cold4 [⟨true, 7, 3⟩]).inputs = ⟨true, 7, 3⟩ :: [] ∧ (⟨true, 7, 3⟩ : CycleInput).rst = true := ⟨rfl, rfl⟩
theorem witness_PowerOnThenReset : CycleInput.reset.rst = true := rfl

/-- The largest `wdata` the port carries, for the decoding clause of this and the five statements without an
operand. -/
theorem witness_NopCompletes : 2 ^ 32 - 1 < 2 ^ (full4).params.dw := by decide

/-- One clause a line: success at the last slot and the last free place, full, not constructed. -/
theorem witness_PushStoresAtTail :
    (2 ^ 32 - 1 < 2 ^ cap4.dw) ∧
    ((mk cap4 0 3 3 [(0, 1), (1, 2), (2, 3)] 0 0).tail < 4 ∧
      (mk cap4 0 3 3 [(0, 1), (1, 2), (2, 3)] 0 0).count < 4) ∧
    ((full4).init = true ∧ (full4).count = (full4).params.capacity) ∧ (cold4).init = false := by decide
/-- One clause a line: success at the last slot with one element, empty, not constructed. -/
theorem witness_PopAdvancesHead :
    ((mk cap4 3 0 1 [(3, 7)] 0 0).head < 4 ∧ 0 < (mk cap4 3 0 1 [(3, 7)] 0 0).count) ∧
    ((empty4).init = true ∧ (empty4).count = 0) ∧ (cold4).init = false := by decide
/-- One clause a line: success at the last slot with one element, empty, not constructed. -/
theorem witness_FrontReturnsHeadSlot :
    ((mk cap4 3 0 1 [(3, 7)] 0 0).head < 4 ∧ 0 < (mk cap4 3 0 1 [(3, 7)] 0 0).count ∧
      (mk cap4 3 0 1 [(3, 7)] 0 0).storage.read 3 = some 7) ∧
    ((empty4).init = true ∧ (empty4).count = 0) ∧ (cold4).init = false := by decide
theorem witness_ClearEmptiesQueue : (full4).init = true ∧ (cold4).init = false := by decide
theorem witness_TravLoadsCursor :
    ((full4).init = true ∧ (full4).head < (full4).params.capacity ∧
      (full4).count ≤ (full4).params.capacity) ∧ (cold4).init = false := by decide
/-- One clause a line: the cursor at the last slot, nothing left, not constructed. -/
theorem witness_TnextYieldsCursorSlot :
    ((full4).init = true ∧ 0 < (full4).trem ∧ (full4).trem ≤ 4 ∧ (full4).tcur < 4 ∧ 2 < (full4).count ∧
      (full4).tcur = ((full4).head + 2) % (full4).params.capacity ∧
      (full4).storage.read (full4).tcur = some 4) ∧
    ((empty4).init = true ∧ (empty4).trem = 0) ∧ (cold4).init = false := by decide
theorem witness_FullExactlyOnPushWhenFull :
    2 ^ 32 - 1 < 2 ^ (full4).params.dw ∧ (full4).init = true ∧ (full4).count = (full4).params.capacity := by
  decide
theorem witness_EmptyExactlyOnPopOrFrontWhenEmpty :
    ((empty4).init = true ∧ (empty4).count = 0) ∧ ∃ t, exec .tnext (empty4) = .next t ∧ t.trace ≠ [] :=
  ⟨by decide, _, rfl, by decide⟩
theorem witness_UninitExactlyBeforeReset : WellFormed (cold4).params (.push 0) = true ∧ (cold4).init = false := by
  decide
theorem witness_EndExactlyWhenNothingRemains : (empty4).init = true ∧ (empty4).trem = 0 := by decide
theorem witness_IllegalExactlyOnReservedCode :
    (cold4 [⟨false, 7, 0⟩]).inputs = ⟨false, 7, 0⟩ :: [] ∧
      CycleInput.fits (cold4).params ⟨false, 7, 0⟩ = true := ⟨rfl, by decide⟩
/-- Both clauses: a FULL cycle, and an UNINIT cycle. -/
theorem witness_ConditionChangesNothing :
    (∃ t o, step (full4 [⟨false, 1, 9⟩]) = .next t ∧ t.trace = o :: [] ∧ o.response.status ≠ .ok) ∧
    ∃ t, step (cold4 [⟨false, 4, 0⟩]) = .fault (.uninit t) :=
  ⟨⟨_, _, rfl, rfl, by decide⟩, _, rfl⟩
theorem witness_StatusesOfEachCommand :
    (∃ t o, exec .front (full4) = .next t ∧ t.trace = o :: []) ∧
      ∃ t, exec .front (cold4) = .fault (.uninit t) := ⟨⟨_, _, rfl, rfl⟩, _, rfl⟩
theorem witness_ResponseIsTheCombinationalOne :
    Inv (part4 [⟨false, 6, 0⟩]) ∧ CycleInput.fits (part4).params ⟨false, 6, 0⟩ = true :=
  ⟨part4_inv _, by decide⟩
/-- Every clause: data, no data, and an UNINIT cycle. -/
theorem witness_DataOnlyFromFrontAndTnext :
    (∃ t o, step (part4 [⟨false, 6, 0⟩]) = .next t ∧ t.trace = o :: [] ∧ o.response.rvalid = true) ∧
    (∃ t o, step (part4 [⟨false, 2, 0⟩]) = .next t ∧ t.trace = o :: [] ∧ o.response.rvalid = false) ∧
    ∃ t, step (cold4 [⟨false, 6, 0⟩]) = .fault (.uninit t) :=
  ⟨⟨_, _, rfl, rfl, rfl⟩, ⟨_, _, rfl, rfl, rfl⟩, _, rfl⟩
/-- Constructed and not constructed, a next state and an UNINIT fault, and a reset cycle. -/
theorem witness_OutputsShowCountBeforeTheEdge :
    (∃ t, step (full4 [⟨false, 2, 0⟩]) = .next t) ∧ (∃ t, step (cold4 [⟨false, 0, 0⟩]) = .next t) ∧
      (∃ t, step (cold4 [⟨false, 2, 0⟩]) = .fault (.uninit t)) ∧ ∃ t, step (cold4 [⟨true, 7, 0⟩]) = .next t :=
  ⟨⟨_, rfl⟩, ⟨_, rfl⟩, ⟨_, rfl⟩, _, rfl⟩
theorem witness_EmptyAndFullExclude :
    (Inv (full1) ∧ (full1).init = true ∧ (full1).params.capacity = 1) ∧ Inv (full4) ∧ (full4).init = true :=
  ⟨⟨full1_inv _, rfl, rfl⟩, full4_inv _, rfl⟩
theorem witness_PointersMeetWhenEmptyOrFull :
    (Inv (full4) ∧ (full4).init = true) ∧ (Inv (empty4) ∧ (empty4).init = true) ∧ Inv (part4) :=
  ⟨⟨full4_inv _, rfl⟩, ⟨empty4_inv _, rfl⟩, part4_inv _⟩
theorem witness_RegistersFitTheirWidths : Inv (full4) ∧ (full4).init = true := ⟨full4_inv _, rfl⟩
theorem witness_IncWrapIsSuccessorModCapacity : 2 < 3 ∧ 0 < 1 := by decide
/-- A PUSH that stores and one that fails. -/
theorem witness_PushFrame :
    (∃ t, exec (.push 9) (part4) = .next t) ∧ ∃ t, exec (.push 9) (full4) = .next t := ⟨⟨_, rfl⟩, _, rfl⟩
theorem witness_RegisterCommandsFrame :
    (∃ t, exec .pop (full4) = .next t) ∧ (∃ t, exec .clear (full4) = .next t) ∧
      (∃ t, exec .trav (full4) = .next t) ∧ ∃ t, exec .tnext (full4) = .next t :=
  ⟨⟨_, rfl⟩, ⟨_, rfl⟩, ⟨_, rfl⟩, _, rfl⟩
theorem witness_ReadOnlyCommandsFrame :
    (∃ t, exec .nop (cold4) = .next t) ∧ (∃ t, exec .front (full4) = .next t) ∧
      ∃ t, exec .ill (cold4) = .next t := ⟨⟨_, rfl⟩, ⟨_, rfl⟩, _, rfl⟩
/-- A cycle that stores, and one whose write decode selects no slot. -/
theorem witness_StorageFollowsWriteDecode :
    (∃ t, step (part4 [⟨false, 1, 9⟩]) = .next t ∧ writeEnable (part4) ⟨false, 1, 9⟩ 1 = true) ∧
      ∃ t, step (full4 [⟨true, 1, 9⟩]) = .next t ∧ writeEnable (full4) ⟨true, 1, 9⟩ 1 = false :=
  ⟨⟨_, rfl, by decide⟩, _, rfl, by decide⟩
theorem witness_WdataIgnoredUnlessPush :
    (2 : BitVec 3) ≠ 1 ∧ 0x1234 < 2 ^ (full4).params.dw ∧ 2 ^ 32 - 1 < 2 ^ (full4).params.dw := by decide
theorem witness_OnlyResetWritesInit : ∃ t, step (cold4 [⟨true, 0, 0⟩]) = .next t := ⟨_, rfl⟩
theorem witness_ParametersNeverChange : ∃ t, step (full4 [⟨false, 4, 0⟩]) = .next t := ⟨_, rfl⟩
theorem witness_StepKeepsInvariant :
    Inv (part4 [⟨false, 1, 9⟩]) ∧ ∃ t, step (part4 [⟨false, 1, 9⟩]) = .next t := ⟨part4_inv _, _, rfl⟩
theorem witness_ConstructedMachineNeverStops :
    Inv (full4 [⟨false, 6, 0⟩]) ∧ (full4).init = true ∧ CycleInput.fits (full4).params ⟨false, 6, 0⟩ = true :=
  ⟨full4_inv _, rfl, by decide⟩
theorem witness_BootedRunIsSafe :
    Inv (cold4 [⟨false, 0, 0⟩, ⟨true, 0, 0⟩, ⟨false, 1, 9⟩]) ∧
      bootOrder false [⟨false, 0, 0⟩, ⟨true, 0, 0⟩, ⟨false, 1, 9⟩] = true ∧
      ∀ c ∈ (cold4 [⟨false, 0, 0⟩, ⟨true, 0, 0⟩, ⟨false, 1, 9⟩]).inputs, c.fits cap4 = true :=
  ⟨cold4_inv _, by decide, by decide⟩
/-- The first clause with both self-loops and a transition, then one clause each. -/
theorem witness_LifecycleTransitions :
    (Inv (full4) ∧ (∃ t, exec (.push 9) (full4) = .next t) ∧ ∃ t, exec .pop (full4) = .next t) ∧
      (Inv (empty4) ∧ ∃ t, exec .pop (empty4) = .next t) ∧ (∃ t, resetCycle (cold4) = .next t) ∧
      phase (cold4) = .uninitialized ∧ (Inv (full1) ∧ (full1).params.capacity = 1) :=
  ⟨⟨full4_inv _, ⟨_, rfl⟩, _, rfl⟩, ⟨empty4_inv _, _, rfl⟩, ⟨_, rfl⟩, by decide, full1_inv _, rfl⟩
theorem witness_CountMovesByOneOrToZero :
    Inv (part4) ∧ ∃ t o, exec (.push 9) (part4) = .next t ∧ t.trace = o :: (part4).trace :=
  ⟨part4_inv _, _, _, rfl, rfl⟩
theorem witness_ControllerRefinesQueue :
    Inv (part4) ∧ (part4).init = true ∧ WellFormed (part4).params (.push (2 ^ 32 - 1)) = true :=
  ⟨part4_inv _, rfl, by decide⟩
theorem witness_TraversalIsQueueSuffix : Inv (full4) ∧ (full4).init = true := ⟨full4_inv _, rfl⟩
theorem witness_TraversalYieldsContents :
    Inv (full4 [⟨false, 5, 0⟩, ⟨false, 6, 0⟩, ⟨false, 3, 0⟩, ⟨false, 1, 9⟩]) ∧ 0 < 2 ^ (full4).params.dw ∧
      ∀ d ∈ [⟨false, 6, 0⟩, ⟨false, 3, 0⟩, ⟨false, 1, 9⟩],
        keepsTraversal (full4) d = true ∧ d.fits (full4).params = true := ⟨full4_inv _, by decide, by decide⟩
theorem witness_TraverseLineReadsQueue :
    Inv (full4 (AsmLine.traverse.expand 4)) ∧ (full4).count = 4 ∧ (full4).init = true :=
  ⟨full4_inv _, rfl, rfl⟩
theorem witness_InitLineFillsQueue :
    Inv (full4 ((AsmLine.init [1, 2, 3, 2 ^ 32 - 1]).expand 4)) ∧ [1, 2, 3, 2 ^ 32 - 1].length ≤ cap4.capacity ∧
      ∀ v ∈ [1, 2, 3, 2 ^ 32 - 1], v < 2 ^ cap4.dw := ⟨full4_inv _, by decide, by decide⟩
/-- Program P2: 10, 20, 30, 40, two POP, 50, 60. -/
theorem witness_WraparoundKeepsOrder :
    Inv (empty4 ([10, 20, 30, 40].map (fun v => CycleInput.ofInstr (.push v)) ++
        List.replicate 2 (CycleInput.ofInstr .pop) ++
        [50, 60].map (fun v => CycleInput.ofInstr (.push v)))) ∧
      (empty4).count = 0 ∧ (∀ v ∈ [10, 20, 30, 40] ++ [50, 60], v < 2 ^ (empty4).params.dw) :=
  ⟨empty4_inv _, by decide, by decide⟩
theorem witness_ClearTwiceAndResetAgree : ∃ t, exec .clear (full4) = .next t := ⟨_, rfl⟩
theorem witness_CursorUnseenWithoutTraversal : (empty4 [⟨false, 5, 0⟩, ⟨false, 6, 0⟩]).trem = 0 := rfl
/-- The same queue as `part4` with another stale element in the free slot 1. -/
theorem witness_FreeSlotsUnseen :
    Inv (part4) ∧ Memory.wf (part4).params [(0, 6), (1, 77), (2, 4), (3, 5)] ∧
      ∀ i, i < (part4).count →
        Memory.read [(0, 6), (1, 77), (2, 4), (3, 5)] (slotAt (part4) i) =
          (part4).storage.read (slotAt (part4) i) := ⟨part4_inv _, by decide, by decide⟩
theorem witness_OutputsIgnoreWdata :
    (∃ t, exec (.push 0) (part4) = .next t) ∧ ∃ u, exec (.push (2 ^ 32 - 1)) (part4) = .next u :=
  ⟨⟨_, rfl⟩, _, rfl⟩

end Sys2Proof.Tests
end

section
/-! The lifecycle state (10_state.md R23): what each value of `phase` says of the registers, and how the
commands move it. -/

namespace Sys2Proof.Machine

/-! ### The lifecycle state in terms of the registers -/

theorem phase_of_count_zero {s : State} (hi : s.init = true) (hc : s.count = 0) : phase s = .empty := by
  simp [phase, hi, hc]

theorem phase_of_count_capacity {s : State} (hi : s.init = true) (hc : s.count = s.params.capacity) :
    phase s = .full := by
  simp [phase, hi, hc, s.params.capacity_pos.ne']

/-- A state that holds an element is not empty. -/
theorem phase_of_count_pos {s : State} (hi : s.init = true) (hc : 0 < s.count) :
    phase s = .partiallyFilled ∨ phase s = .full := by
  by_cases hf : s.count = s.params.capacity
  · exact .inr (phase_of_count_capacity hi hf)
  · exact .inl (by simp [phase, hi, hc.ne', hf])

/-- A state with a free slot is not full. -/
theorem phase_of_count_lt {s : State} (hi : s.init = true) (hc : s.count < s.params.capacity) :
    phase s = .empty ∨ phase s = .partiallyFilled := by
  by_cases he : s.count = 0
  · exact .inl (phase_of_count_zero hi he)
  · exact .inr (by simp [phase, hi, he, hc.ne])

theorem phase_eq_uninitialized_iff (s : State) : phase s = .uninitialized ↔ s.init = false := by
  cases hi : s.init with
  | false => simp [phase, hi]
  | true =>
    obtain hc | hc := Nat.eq_zero_or_pos s.count
    · simp [phase_of_count_zero hi hc]
    · obtain h | h := phase_of_count_pos hi hc <;> simp [h]

/-- With one slot a constructed state is empty or full. -/
theorem phase_ne_partiallyFilled_of_capacity_one {s : State} (h : Inv s) (hp : s.params.capacity = 1) :
    phase s ≠ .partiallyFilled := by
  cases hi : s.init with
  | false => simp [(phase_eq_uninitialized_iff s).2 hi]
  | true =>
    have hle : s.count ≤ s.params.capacity := (h.constructed hi).count_le
    obtain hc | hc : s.count = 0 ∨ s.count = s.params.capacity := by omega
    · simp [phase_of_count_zero hi hc]
    · simp [phase_of_count_capacity hi hc]

/-- The lifecycle state depends on `params`, `init` and `count` alone (10_state.md R23). -/
theorem phase_congr {s t : State} (hp : t.params = s.params) (hi : t.init = s.init)
    (hc : t.count = s.count) : phase t = phase s := by
  simp [phase, hp, hi, hc]

@[simp] theorem phase_record (s : State) (o : Observation) : phase (s.record o) = phase s :=
  phase_congr rfl rfl rfl

/-! ### How the commands move it -/

theorem execPush_phase {v : Elem} {s t : State} (h : execPush v s = .next t) :
    (phase s = .full ∧ phase t = .full ∧ t.trace = observe s (noData .full) :: s.trace) ∨
    ((phase s = .empty ∨ phase s = .partiallyFilled) ∧ (phase t = .partiallyFilled ∨ phase t = .full) ∧
      t.trace = observe s okNoData :: s.trace) := by
  obtain ⟨-, hi, ⟨hc, rfl⟩ | ⟨hc, -, rfl⟩⟩ := execPush_next h
  · have hs : phase s = .full := phase_of_count_capacity hi hc
    exact .inl ⟨hs, by simpa using hs, rfl⟩
  · exact .inr ⟨phase_of_count_lt hi hc, phase_of_count_pos hi (Nat.succ_pos _), rfl⟩

theorem execPop_phase {s t : State} (h : execPop s = .next t) :
    (phase s = .empty ∧ phase t = .empty ∧ t.trace = observe s (noData .empty) :: s.trace) ∨
    ((phase s = .full ∨ phase s = .partiallyFilled) ∧ (phase t = .partiallyFilled ∨ phase t = .empty) ∧
      t.trace = observe s okNoData :: s.trace) := by
  obtain ⟨hi, ⟨hc, rfl⟩ | ⟨hpos, hle, -, rfl⟩⟩ := execPop_next h
  · have hs : phase s = .empty := phase_of_count_zero hi hc
    exact .inl ⟨hs, by simpa using hs, rfl⟩
  · have hlt : s.count - 1 < s.params.capacity := by omega
    exact .inr ⟨(phase_of_count_pos hi hpos).symm, Or.symm (phase_of_count_lt hi hlt), rfl⟩

theorem execClear_phase {s t : State} (h : execClear s = .next t) :
    phase s ≠ .uninitialized ∧ phase t = .empty := by
  obtain ⟨hi, rfl⟩ := execClear_next h
  exact ⟨by simp [phase_eq_uninitialized_iff, hi], phase_of_count_zero hi rfl⟩

theorem execNop_phase {s t : State} (h : execNop s = .next t) : phase t = phase s := by
  rw [execNop_next h, phase_record]

theorem execFront_phase {s t : State} (h : execFront s = .next t) : phase t = phase s := by
  obtain ⟨-, ⟨-, rfl⟩ | ⟨v, -, -, -, rfl⟩⟩ := execFront_next h
  · exact phase_record s _
  · exact phase_record s _

theorem execTrav_phase {s t : State} (h : execTrav s = .next t) : phase t = phase s := by
  obtain ⟨-, -, -, rfl⟩ := execTrav_next h
  exact phase_congr rfl rfl rfl

theorem execTnext_phase {s t : State} (h : execTnext s = .next t) : phase t = phase s := by
  obtain ⟨-, ⟨-, rfl⟩ | ⟨v, -, -, -, rfl⟩⟩ := execTnext_next h
  · exact phase_record s _
  · exact phase_congr rfl rfl rfl

theorem execIll_phase {s t : State} (h : execIll s = .next t) : phase t = phase s := by
  rw [execIll_next h, phase_record]

theorem resetCycle_phase {s t : State} (h : resetCycle s = .next t) : phase t = .empty := by
  rw [resetCycle_next h, phase_record]
  exact phase_of_count_zero rfl rfl

/-- CLEAR before any reset is an UNINIT fault that stays where it is (60_exceptions.md R95). -/
theorem execClear_of_uninitialized {s : State} (h : phase s = .uninitialized) :
    ∃ t, execClear s = .fault (.uninit t) ∧ phase t = .uninitialized :=
  ⟨_, whenInit_of_not_init ((phase_eq_uninitialized_iff s).1 h) _, by rw [phase_record, h]⟩

/-- Settles O43: one transition lemma per command, then reset, CLEAR before reset and the one-slot buffer. -/
theorem lifecycleTransitions : Obligations.LifecycleTransitions := by
  refine ⟨fun i s t _ h => ?_, fun _ _ => resetCycle_phase, fun _ => execClear_of_uninitialized,
    fun _ => phase_ne_partiallyFilled_of_capacity_one⟩
  cases i with
  | push v => exact execPush_phase h
  | pop => exact execPop_phase h
  | clear => exact execClear_phase h
  | nop => exact execNop_phase h
  | front => exact execFront_phase h
  | trav => exact execTrav_phase h
  | tnext => exact execTnext_phase h
  | ill => exact execIll_phase h

end Sys2Proof.Machine
end

section
/-! Which cycles return an element (30_encoding.md R52): what an UNINIT fault of a command, a cycle and a step
carries, and the response of every command that completes. -/

namespace Sys2Proof.Machine

/-! ### What an UNINIT fault carries -/

/-- When the guarded command raises no UNINIT of its own, the fault is the guard's (60_exceptions.md R95). -/
theorem whenInit_uninit_of_ne {s t : State} {k : Result} (hk : k ≠ .fault (.uninit t))
    (h : whenInit s k = .fault (.uninit t)) :
    s.init = false ∧ t = s.record (observe s (noData .uninit)) :=
  (whenInit_uninit h).resolve_right fun hr => hk hr.2

/-- FULL, EMPTY and END are no faults, so the fault comes from the other branch. -/
theorem ite_raise_uninit {p : Prop} [Decidable p] {x : Status} {s t : State} {k : Result}
    (hx : x ≠ .uninit) (h : (if p then raise x s else k) = .fault (.uninit t)) :
    k = .fault (.uninit t) := by
  split at h
  · exact absurd h (raise_ne_uninit hx s t)
  · exact h

theorem memRead_respond_ne_uninit (s t : State) (a : Nat) (r : Elem → Response) (s' : State) :
    memRead s a (fun v => respond s (r v) s') ≠ .fault (.uninit t) := fun h =>
  let ⟨_, hv⟩ := memRead_uninit h
  respond_ne_uninit _ _ _ _ hv

theorem execPush_uninit {v : Elem} {s t : State} (h : execPush v s = .fault (.uninit t)) :
    s.init = false ∧ t = s.record (observe s (noData .uninit)) :=
  whenInit_uninit_of_ne (fun hk => respond_ne_uninit _ _ _ _ <|
    withAddr_uninit (ite_raise_uninit (by decide) (withCounter_uninit hk))) (withWdata_uninit h)

theorem execPop_uninit {s t : State} (h : execPop s = .fault (.uninit t)) :
    s.init = false ∧ t = s.record (observe s (noData .uninit)) :=
  whenInit_uninit_of_ne (fun hk => respond_ne_uninit _ _ _ _ <|
    withAddr_uninit (ite_raise_uninit (by decide) (withCounter_uninit hk))) h

theorem execFront_uninit {s t : State} (h : execFront s = .fault (.uninit t)) :
    s.init = false ∧ t = s.record (observe s (noData .uninit)) :=
  whenInit_uninit_of_ne (fun hk => memRead_respond_ne_uninit _ _ _ _ _ <|
    ite_raise_uninit (by decide) (withCounter_uninit hk)) h

theorem execClear_uninit {s t : State} (h : execClear s = .fault (.uninit t)) :
    s.init = false ∧ t = s.record (observe s (noData .uninit)) :=
  whenInit_uninit_of_ne (respond_ne_uninit _ _ _ _) h

theorem execTrav_uninit {s t : State} (h : execTrav s = .fault (.uninit t)) :
    s.init = false ∧ t = s.record (observe s (noData .uninit)) :=
  whenInit_uninit_of_ne
    (fun hk => respond_ne_uninit _ _ _ _ (withCounter_uninit (withAddr_uninit hk))) h

theorem execTnext_uninit {s t : State} (h : execTnext s = .fault (.uninit t)) :
    s.init = false ∧ t = s.record (observe s (noData .uninit)) :=
  whenInit_uninit_of_ne (fun hk => memRead_respond_ne_uninit _ _ _ _ _ <|
    ite_raise_uninit (by decide) (withCounter_uninit hk)) h

/-- A command ends with UNINIT only before the first reset, and changes nothing (60_exceptions.md R92, R95). -/
theorem exec_uninit {i : Instr} {s t : State} (h : exec i s = .fault (.uninit t)) :
    s.init = false ∧ t = s.record (observe s (noData .uninit)) := by
  cases i with
  | nop => exact absurd h (respond_ne_uninit _ _ _ _)
  | push v => exact execPush_uninit h
  | pop => exact execPop_uninit h
  | front => exact execFront_uninit h
  | clear => exact execClear_uninit h
  | trav => exact execTrav_uninit h
  | tnext => exact execTnext_uninit h
  | ill => exact absurd h (raise_ne_uninit (x := .illegal) (by decide) s t)

/-- A cycle with an UNINIT fault executes the command on the port (40_queue_ops.md R60). -/
theorem cycle_uninit {c : CycleInput} {s t : State} (h : cycle c s = .fault (.uninit t)) :
    c.rst = false ∧ c.wdata < 2 ^ s.params.dw ∧
      exec (decodeOp c.op c.wdata) s = .fault (.uninit t) := by
  cases hr : c.rst with
  | true =>
    rw [cycle_of_rst hr] at h
    exact absurd h (respond_ne_uninit _ _ _ _)
  | false =>
    by_cases hw : c.wdata < 2 ^ s.params.dw
    · exact ⟨rfl, hw, cycle_of_fits hr hw ▸ h⟩
    · simp [cycle, hr, decodePort, hw] at h

/-- What an UNINIT fault of a step carries: the state before the edge, one cycle on, with (UNINIT, 0, 0)
recorded. -/
theorem step_uninit {s t : State} (h : step s = .fault (.uninit t)) :
    ∃ c rest, s.inputs = c :: rest ∧ c.rst = false ∧ s.init = false ∧
      t = State.record { s with inputs := rest } (observe s (noData .uninit)) := by
  cases hin : s.inputs with
  | nil => simp [step, fetchCycle, hin] at h
  | cons c rest =>
    rw [step_of_inputs hin] at h
    obtain ⟨hr, -, he⟩ := cycle_uninit h
    obtain ⟨hi, ht⟩ := exec_uninit he
    exact ⟨c, rest, rfl, hr, hi, ht⟩

/-! ### Which response a cycle gives -/

/-- The code the port carries is that of the command it decodes to (30_encoding.md R48, R50). -/
theorem opCode_decodeOp (op : BitVec 3) (w : Nat) : opCode (decodeOp op w) = op := by
  have hcodes : ∀ b : BitVec 3, b = 0 ∨ b = 1 ∨ b = 2 ∨ b = 3 ∨ b = 4 ∨ b = 5 ∨ b = 6 ∨ b = 7 := by decide
  obtain rfl | rfl | rfl | rfl | rfl | rfl | rfl | rfl := hcodes op <;> rfl

/-- The rule of 30_encoding.md R52 for the response `r` to the inputs `c` in the state `s`. -/
structure DataFollowsRead (s : State) (c : CycleInput) (r : Response) : Prop where
  rvalid_iff : r.rvalid = true ↔ c.rst = false ∧ (c.op = 3 ∨ c.op = 6) ∧ r.status = .ok
  read : r.rvalid = true → s.storage.read (readSelect s c) = some r.rdata
  rdata_zero : r.rvalid = false → r.rdata = 0

section
variable {s : State} {c : CycleInput}

/-- A response that is not OK returns no element. -/
theorem DataFollowsRead.of_status_ne_ok {x : Status} (hx : x ≠ .ok) : DataFollowsRead s c (noData x) :=
  ⟨by simp [noData, hx], by simp [noData], fun _ => rfl⟩

/-- A reset cycle, or a command that is neither FRONT nor TNEXT, completes with OK and no element. -/
theorem DataFollowsRead.of_not_read (hc : ¬ (c.rst = false ∧ (c.op = 3 ∨ c.op = 6))) :
    DataFollowsRead s c okNoData :=
  ⟨by simpa [okNoData] using hc, by simp [okNoData], fun _ => rfl⟩

/-- A FRONT or a TNEXT returns the element of the slot its read multiplexer selects (20_memory.md R34). -/
theorem DataFollowsRead.of_read {v : Elem} (hr : c.rst = false) (hop : c.op = 3 ∨ c.op = 6)
    (hv : s.storage.read (readSelect s c) = some v) : DataFollowsRead s c (okData v) :=
  ⟨by simpa [okData, hr] using hop, fun _ => hv, by simp [okData]⟩

/-- Every command that completes records one response, and that follows the rule of 30_encoding.md R52. -/
theorem exec_next_dataFollowsRead {i : Instr} {t : State} (hr : c.rst = false) (hop : c.op = opCode i)
    (h : exec i s = .next t) : ∃ r, t.trace = observe s r :: s.trace ∧ DataFollowsRead s c r := by
  cases i with
  | nop =>
    rw [execNop_next h]
    exact ⟨_, rfl, .of_not_read (by simp [hop, opCode])⟩
  | push v =>
    obtain ⟨-, -, ⟨-, rfl⟩ | ⟨-, -, rfl⟩⟩ := execPush_next h
    · exact ⟨_, rfl, .of_status_ne_ok (by decide)⟩
    · exact ⟨_, rfl, .of_not_read (by simp [hop, opCode])⟩
  | pop =>
    obtain ⟨-, ⟨-, rfl⟩ | ⟨-, -, -, rfl⟩⟩ := execPop_next h
    · exact ⟨_, rfl, .of_status_ne_ok (by decide)⟩
    · exact ⟨_, rfl, .of_not_read (by simp [hop, opCode])⟩
  | front =>
    obtain ⟨-, ⟨-, rfl⟩ | ⟨v, -, -, hv, rfl⟩⟩ := execFront_next h
    · exact ⟨_, rfl, .of_status_ne_ok (by decide)⟩
    · exact ⟨_, rfl, .of_read hr (.inl hop) (by simpa [readSelect, hop] using hv)⟩
  | clear =>
    obtain ⟨-, rfl⟩ := execClear_next h
    exact ⟨_, rfl, .of_not_read (by simp [hop, opCode])⟩
  | trav =>
    obtain ⟨-, -, -, rfl⟩ := execTrav_next h
    exact ⟨_, rfl, .of_not_read (by simp [hop, opCode])⟩
  | tnext =>
    obtain ⟨-, ⟨-, rfl⟩ | ⟨v, -, -, hv, rfl⟩⟩ := execTnext_next h
    · exact ⟨_, rfl, .of_status_ne_ok (by decide)⟩
    · exact ⟨_, rfl, .of_read hr (.inr hop) (by simpa [readSelect, hop, opCode] using hv)⟩
  | ill =>
    rw [execIll_next h]
    exact ⟨_, rfl, .of_status_ne_ok (by decide)⟩

/-- A step with a next state, reset cycles included, records one response that follows the rule. -/
theorem step_next_dataFollowsRead {t : State} {rest : List CycleInput} (hin : s.inputs = c :: rest)
    (h : step s = .next t) : ∃ r, t.trace = observe s r :: s.trace ∧ DataFollowsRead s c r := by
  obtain ⟨hr, rfl⟩ | ⟨hr, -, he⟩ := step_next_of_inputs hin h
  · exact ⟨okNoData, rfl, .of_not_read (by simp [hr])⟩
  · obtain ⟨r, ht, hd⟩ := exec_next_dataFollowsRead hr (opCode_decodeOp c.op c.wdata).symm he
    exact ⟨r, ht, hd.rvalid_iff, hd.read, hd.rdata_zero⟩

end

/-- Settles O27: the response of a step with a next state follows the rule of 30_encoding.md R52, by cases on
the command, and an UNINIT fault carries (UNINIT, 0, 0). -/
theorem dataOnlyFromFrontAndTnext : Obligations.DataOnlyFromFrontAndTnext := by
  refine ⟨fun s t c rest o older h hin ho => ?_, fun s t h => ?_⟩
  · obtain ⟨r, ht, hd⟩ := step_next_dataFollowsRead hin h
    obtain ⟨rfl, -⟩ := List.cons.inj (ho.symm.trans ht)
    exact ⟨hd.rvalid_iff, hd.read, hd.rdata_zero⟩
  · obtain ⟨_, _, -, -, -, rfl⟩ := step_uninit h
    exact ⟨_, rfl, rfl, rfl⟩

end Sys2Proof.Machine
end

section
/-! The queue commands in forward form (40_queue_ops.md R61 to R65): the outcome of PUSH, POP, FRONT and CLEAR
in each case the spec distinguishes. -/

namespace Sys2Proof.Machine

/-- What fits the port is the command of its `op` code (30_encoding.md R48). -/
theorem decodePort_of_lt {p : Params} {w : Nat} (hw : w < 2 ^ p.dw) (op : BitVec 3) :
    decodePort p op w = .ok (decodeOp op w) := if_pos hw

section
variable {s : State}

/-! ### PUSH -/

/-- PUSH with a free slot writes the slot at the old tail (40_queue_ops.md R62). -/
theorem execPush_of_count_lt {v : Elem} (hv : v < 2 ^ s.params.dw) (hi : s.init = true)
    (ht : s.tail < s.params.capacity) (hc : s.count < s.params.capacity) :
    execPush v s = respond s okNoData
      { s with
        storage := memWrite s s.tail v
        tail := incWrap s.params.capacity s.tail, count := s.count + 1, trem := 0 } := by
  have hf : ¬ isFull s = true := by simpa using hc.ne
  simp [execPush, hv, hi, hc.le, hf, ht]

theorem execPush_of_full {v : Elem} (hv : v < 2 ^ s.params.dw) (hi : s.init = true)
    (hc : s.count = s.params.capacity) : execPush v s = respond s (noData .full) s := by
  have hf : isFull s = true := (isFull_eq_true s).2 hc
  simp [execPush, hv, hi, hc.le, hf, raise_of_ne]

theorem execPush_of_not_init {v : Elem} (hv : v < 2 ^ s.params.dw) (hi : s.init = false) :
    execPush v s = .fault (.uninit (s.record (observe s (noData .uninit)))) := by
  rw [execPush, withWdata_of_lt hv, whenInit_of_not_init hi]

/-! ### POP -/

theorem execPop_of_count_pos (hi : s.init = true) (hh : s.head < s.params.capacity) (hpos : 0 < s.count)
    (hle : s.count ≤ s.params.capacity) :
    execPop s = respond s okNoData
      { s with head := incWrap s.params.capacity s.head, count := s.count - 1, trem := 0 } := by
  have he : ¬ isEmpty s = true := by simpa using hpos.ne'
  simp [execPop, hi, hle, he, hh]

theorem execPop_of_count_zero (hi : s.init = true) (hc : s.count = 0) :
    execPop s = respond s (noData .empty) s := by
  have he : isEmpty s = true := (isEmpty_eq_true s).2 hc
  simp [execPop, hi, hc, he, raise_of_ne]

/-! ### FRONT -/

/-- FRONT of a non-empty queue reads the slot at the head, which is valid (20_memory.md R46). -/
theorem execFront_of_read {v : Elem} (hi : s.init = true) (hh : s.head < s.params.capacity)
    (hpos : 0 < s.count) (hle : s.count ≤ s.params.capacity) (hv : s.storage.read s.head = some v) :
    execFront s = respond s (okData v) s := by
  have he : ¬ isEmpty s = true := by simpa using hpos.ne'
  simp [execFront, hi, hle, he, memRead_of_valid hh (slotValid_head hpos hh) hv]

theorem execFront_of_count_zero (hi : s.init = true) (hc : s.count = 0) :
    execFront s = respond s (noData .empty) s := by
  have he : isEmpty s = true := (isEmpty_eq_true s).2 hc
  simp [execFront, hi, hc, he, raise_of_ne]

/-! ### CLEAR -/

/-- CLEAR looks at no register, so it succeeds in every constructed state (40_queue_ops.md R65). -/
theorem execClear_of_init (hi : s.init = true) :
    execClear s = respond s okNoData { s with head := 0, tail := 0, count := 0, tcur := 0, trem := 0 } :=
  whenInit_of_init hi _

end

/-! ### The obligations -/

/-- Settles O12: a free slot, a full buffer and a machine not constructed are the three cases, and the storage
after the first is that of one slot write at the old tail. -/
theorem pushStoresAtTail : Obligations.PushStoresAtTail := by
  intro v s hv
  refine ⟨fun hi ht hc => ⟨memWrite s s.tail v, execPush_of_count_lt hv hi ht hc, ?_, fun a ha => ?_⟩,
    execPush_of_full hv, execPush_of_not_init hv, decodePort_of_lt hv 1⟩
  · exact Memory.read_write_same s.storage s.tail v
  · exact Memory.read_write_other s.storage v ha

/-- Settles O11: NOP has no guard. -/
theorem nopCompletes : Obligations.NopCompletes := fun s =>
  ⟨show execNop s = .next (s.record (observe s okNoData)) from rfl, fun _ hw => decodePort_of_lt hw 0⟩

/-- Settles O13: a stored element, an empty queue and a machine not constructed are the three cases. -/
theorem popAdvancesHead : Obligations.PopAdvancesHead := fun _ =>
  ⟨execPop_of_count_pos, execPop_of_count_zero, fun hi => whenInit_of_not_init hi _,
    fun _ hw => decodePort_of_lt hw 2⟩

/-- Settles O14: a readable head slot, an empty queue and a machine not constructed are the three cases. -/
theorem frontReturnsHeadSlot : Obligations.FrontReturnsHeadSlot := fun _ =>
  ⟨fun _ => execFront_of_read, execFront_of_count_zero, fun hi => whenInit_of_not_init hi _,
    fun _ hw => decodePort_of_lt hw 3⟩

/-- Settles O15: a machine constructed or not are the two cases. -/
theorem clearEmptiesQueue : Obligations.ClearEmptiesQueue := fun _ =>
  ⟨execClear_of_init, fun hi => whenInit_of_not_init hi _, fun _ hw => decodePort_of_lt hw 4⟩

end Sys2Proof.Machine
end

section
/-! The traversal commands in forward form (41_traversal.md R70, R71): the outcome of TRAV and TNEXT in each
case the spec distinguishes. -/

namespace Sys2Proof.Machine

section
variable {s : State}

/-- TRAV looks at no slot, so it succeeds on an empty queue too (41_traversal.md R70). -/
theorem execTrav_of_init (hi : s.init = true) (hh : s.head < s.params.capacity)
    (hc : s.count ≤ s.params.capacity) :
    execTrav s = respond s okNoData { s with tcur := s.head, trem := s.count } := by
  rw [execTrav, whenInit_of_init hi, withAddr_of_lt hh, withCounter_of_le hc]

/-- TNEXT with elements left to yield reads the slot at the cursor (41_traversal.md R71). -/
theorem execTnext_of_read {v : Elem} (hi : s.init = true) (hpos : 0 < s.trem)
    (hle : s.trem ≤ s.params.capacity) (ha : s.tcur < s.params.capacity)
    (hs : slotValid s s.tcur = true) (hv : s.storage.read s.tcur = some v) :
    execTnext s = respond s (okData v)
      { s with tcur := incWrap s.params.capacity s.tcur, trem := s.trem - 1 } := by
  rw [execTnext, whenInit_of_init hi, withCounter_of_le hle, if_neg hpos.ne', memRead_of_valid ha hs hv]

theorem execTnext_of_trem_zero (hi : s.init = true) (hr : s.trem = 0) :
    execTnext s = respond s (noData .seqEnd) s := by
  have hle : s.trem ≤ s.params.capacity := by omega
  rw [execTnext, whenInit_of_init hi, withCounter_of_le hle, if_pos hr, raise_of_ne (by decide)]

end

/-! ### The obligations -/

/-- Settles O16: a machine constructed or not are the two cases. -/
theorem travLoadsCursor : Obligations.TravLoadsCursor := fun _ =>
  ⟨execTrav_of_init, fun hi => whenInit_of_not_init hi _, fun _ hw => decodePort_of_lt hw 5⟩

/-- Settles O17: an element left to yield, none left and a machine not constructed are the three cases; in the
first the cursor's place `i` in the queue makes its slot valid (10_state.md R21). -/
theorem tnextYieldsCursorSlot : Obligations.TnextYieldsCursorSlot := by
  refine fun s => ⟨fun v i hi hpos hle ha hlt hcur hv => ?_, execTnext_of_trem_zero,
    fun hi => whenInit_of_not_init hi _, fun _ hw => decodePort_of_lt hw 6⟩
  have hs : slotValid s s.tcur = true := (slotValid_iff s s.tcur).2 ⟨i, hlt, hcur.symm⟩
  exact execTnext_of_read hi hpos hle ha hs hv

end Sys2Proof.Machine
end

section
/-! The status outputs (42_status_outputs.md R80 to R84): their values in a constructed state and before the
first reset, and the state whose outputs a step records. -/

namespace Sys2Proof.Machine

section
variable {s : State}

/-! ### The outputs in terms of `init` and `count` -/

@[simp] theorem whileConstructed_of_init {α : Type} (hi : s.init = true) (v : α) :
    whileConstructed s v = some v := if_pos hi

@[simp] theorem whileConstructed_of_not_init {α : Type} (hi : s.init = false) (v : α) :
    whileConstructed s v = none := by
  rw [whileConstructed, hi, if_neg Bool.false_ne_true]

theorem sizeO_of_init (hi : s.init = true) : sizeO s = some s.count := whileConstructed_of_init hi _

theorem emptyO_of_init (hi : s.init = true) : emptyO s = some (decide (s.count = 0)) :=
  whileConstructed_of_init hi _

theorem fullO_of_init (hi : s.init = true) : fullO s = some (decide (s.count = s.params.capacity)) :=
  whileConstructed_of_init hi _

/-- No status output has a value before the first reset (42_status_outputs.md R83). -/
theorem outputs_of_not_init (hi : s.init = false) : sizeO s = none ∧ emptyO s = none ∧ fullO s = none :=
  ⟨whileConstructed_of_not_init hi _, whileConstructed_of_not_init hi _, whileConstructed_of_not_init hi _⟩

/-- A constructed machine with no element shows 0, 1, 0: `CAPACITY` is positive, so it is not full. -/
theorem outputs_of_count_zero (hi : s.init = true) (hc : s.count = 0) :
    sizeO s = some 0 ∧ emptyO s = some true ∧ fullO s = some false := by
  have hf : s.count ≠ s.params.capacity := hc ▸ s.params.capacity_pos.ne
  exact ⟨by rw [sizeO_of_init hi, hc], by rw [emptyO_of_init hi, decide_eq_true hc],
    by rw [fullO_of_init hi, decide_eq_false hf]⟩

/-! ### What a step records -/

/-- A cycle that ends in a next state or an UNINIT fault records one observation, with the status outputs of
the state before its edge (42_status_outputs.md R84). -/
theorem step_trace {t : State} (h : step s = .next t ∨ step s = .fault (.uninit t)) :
    ∃ r, t.trace = observe s r :: s.trace := by
  obtain h | h := h
  · obtain ⟨c, rest, hin, -⟩ := step_next h
    obtain ⟨r, ht, -⟩ := step_next_dataFollowsRead hin h
    exact ⟨r, ht⟩
  · obtain ⟨c, rest, -, -, -, rfl⟩ := step_uninit h
    exact ⟨noData .uninit, rfl⟩

/-- A reset cycle leaves the state of 70_reset_and_hazards.md R110, whatever the command port carries. -/
theorem step_next_of_rst {t : State} {c : CycleInput} {rest : List CycleInput} (hin : s.inputs = c :: rest)
    (hr : c.rst = true) (h : step s = .next t) :
    t = State.record (State.afterReset { s with inputs := rest }) (observe s okNoData) := by
  rw [step_of_inputs hin, cycle_of_rst hr] at h
  exact resetCycle_next h

end

/-- Settles O28: the recorded observation is that of the state before the edge, and the state after a reset
cycle is constructed and holds no element. -/
theorem outputsShowCountBeforeTheEdge : Obligations.OutputsShowCountBeforeTheEdge := by
  refine ⟨fun s t h => ?_, fun s t c rest hin hr h => ?_⟩
  · obtain ⟨r, ht⟩ := step_trace h
    exact ⟨observe s r, ht, fun hi => ⟨sizeO_of_init hi, emptyO_of_init hi, fullO_of_init hi⟩,
      outputs_of_not_init⟩
  · rw [step_next_of_rst hin hr h]
    exact outputs_of_count_zero rfl rfl

end Sys2Proof.Machine
end

section
/-! The conditions FULL and EMPTY, and END (60_exceptions.md R92 to R97): exactly when each is answered, and
that a cycle which answers one changes nothing of the controller. -/

namespace Sys2Proof.Machine

section
variable {s : State}

/-! ### When each condition is answered -/

/-- A cycle that records a condition is not one that records OK, whatever state its edge leaves. -/
theorem record_condition_ne_ok {t u : State} {x : Status} {r : Response} (hx : x ≠ .ok)
    (hr : r.status = .ok) : t.record (observe s (noData x)) ≠ u.record (observe s r) := fun h =>
  have ho : observe s (noData x) = observe s r := (List.cons.inj (congrArg State.trace h)).1
  hx (hr ▸ congrArg (·.response.status) ho)

/-- PUSH answers FULL when the buffer is full and only then (60_exceptions.md R93). -/
theorem execPush_eq_full_iff {v : Elem} (hv : v < 2 ^ s.params.dw) :
    execPush v s = respond s (noData .full) s ↔ s.init = true ∧ s.count = s.params.capacity := by
  refine ⟨fun h => ?_, fun ⟨hi, hc⟩ => execPush_of_full hv hi hc⟩
  obtain ⟨-, hi, ⟨hc, -⟩ | ⟨-, -, ht⟩⟩ := execPush_next h
  · exact ⟨hi, hc⟩
  · exact absurd ht (record_condition_ne_ok (by decide) rfl)

/-- POP answers EMPTY when the queue is empty and only then (60_exceptions.md R94). -/
theorem execPop_eq_empty_iff :
    execPop s = respond s (noData .empty) s ↔ s.init = true ∧ s.count = 0 := by
  refine ⟨fun h => ?_, fun ⟨hi, hc⟩ => execPop_of_count_zero hi hc⟩
  obtain ⟨hi, ⟨hc, -⟩ | ⟨-, -, -, ht⟩⟩ := execPop_next h
  · exact ⟨hi, hc⟩
  · exact absurd ht (record_condition_ne_ok (by decide) rfl)

/-- FRONT answers EMPTY when the queue is empty and only then (60_exceptions.md R94). -/
theorem execFront_eq_empty_iff :
    execFront s = respond s (noData .empty) s ↔ s.init = true ∧ s.count = 0 := by
  refine ⟨fun h => ?_, fun ⟨hi, hc⟩ => execFront_of_count_zero hi hc⟩
  obtain ⟨hi, ⟨hc, -⟩ | ⟨v, -, -, -, ht⟩⟩ := execFront_next h
  · exact ⟨hi, hc⟩
  · exact absurd ht (record_condition_ne_ok (by decide) rfl)

/-- TNEXT answers END when nothing is left to yield and only then (60_exceptions.md R97). -/
theorem execTnext_eq_seqEnd_iff :
    execTnext s = respond s (noData .seqEnd) s ↔ s.init = true ∧ s.trem = 0 := by
  refine ⟨fun h => ?_, fun ⟨hi, hr⟩ => execTnext_of_trem_zero hi hr⟩
  obtain ⟨hi, ⟨hr, -⟩ | ⟨v, -, -, -, ht⟩⟩ := execTnext_next h
  · exact ⟨hi, hr⟩
  · exact absurd ht (record_condition_ne_ok (by decide) rfl)

/-- TNEXT answers END or the element at the cursor, so it never answers EMPTY (60_exceptions.md R94). -/
theorem execTnext_status_ne_empty {t : State} {o : Observation} {older : List Observation}
    (h : execTnext s = .next t) (ho : t.trace = o :: older) : o.response.status ≠ .empty := by
  obtain ⟨-, ⟨-, rfl⟩ | ⟨v, -, -, -, rfl⟩⟩ := execTnext_next h
  · obtain ⟨rfl, -⟩ := List.cons.inj ho
    exact (by decide : Status.seqEnd ≠ .empty)
  · obtain ⟨rfl, -⟩ := List.cons.inj ho
    exact (by decide : Status.ok ≠ .empty)

/-! ### What a condition changes -/

/-- A command that completes answers a response without data and changes nothing, or it answers OK
(60_exceptions.md R92). -/
theorem exec_next_unchanged_or_ok {i : Instr} {t : State} (h : exec i s = .next t) :
    (∃ x, t = s.record (observe s (noData x))) ∨
      ∃ r, r.status = .ok ∧ t.trace = observe s r :: s.trace := by
  cases i with
  | nop => exact .inl ⟨.ok, execNop_next h⟩
  | push v =>
    obtain ⟨-, -, ⟨-, ht⟩ | ⟨-, -, rfl⟩⟩ := execPush_next h
    · exact .inl ⟨_, ht⟩
    · exact .inr ⟨_, rfl, rfl⟩
  | pop =>
    obtain ⟨-, ⟨-, ht⟩ | ⟨-, -, -, rfl⟩⟩ := execPop_next h
    · exact .inl ⟨_, ht⟩
    · exact .inr ⟨_, rfl, rfl⟩
  | front =>
    obtain ⟨-, ⟨-, ht⟩ | ⟨v, -, -, -, rfl⟩⟩ := execFront_next h
    · exact .inl ⟨_, ht⟩
    · exact .inr ⟨_, rfl, rfl⟩
  | clear =>
    obtain ⟨-, rfl⟩ := execClear_next h
    exact .inr ⟨_, rfl, rfl⟩
  | trav =>
    obtain ⟨-, -, -, rfl⟩ := execTrav_next h
    exact .inr ⟨_, rfl, rfl⟩
  | tnext =>
    obtain ⟨-, ⟨-, ht⟩ | ⟨v, -, -, -, rfl⟩⟩ := execTnext_next h
    · exact .inl ⟨_, ht⟩
    · exact .inr ⟨_, rfl, rfl⟩
  | ill => exact .inl ⟨_, execIll_next h⟩

/-- The same of a step, which moves the host's list on by its cycle; a reset cycle answers OK. -/
theorem step_next_unchanged_or_ok {t : State} (h : step s = .next t) :
    (∃ rest x, t = State.record { s with inputs := rest } (observe s (noData x))) ∨
      ∃ r, r.status = .ok ∧ t.trace = observe s r :: s.trace := by
  obtain ⟨c, rest, -, hc⟩ := step_next h
  obtain ⟨-, rfl⟩ | ⟨-, -, he⟩ := cycle_next hc
  · exact .inr ⟨okNoData, rfl, rfl⟩
  · obtain ⟨x, ht⟩ | hok := exec_next_unchanged_or_ok he
    · exact .inl ⟨rest, x, ht⟩
    · exact .inr hok

/-- The host's list and the record of the outputs are no items of the controller (10_state.md R10). -/
theorem sameController_record_withInputs (s : State) (rest : List CycleInput) (o : Observation) :
    SameController s (State.record { s with inputs := rest } o) :=
  ⟨rfl, rfl, rfl, rfl, rfl, rfl, rfl, rfl⟩

end

/-! ### The obligations -/

/-- Settles O20: a PUSH that completes answers FULL on a full buffer and otherwise OK. -/
theorem fullExactlyOnPushWhenFull : Obligations.FullExactlyOnPushWhenFull := fun _ _ hv =>
  execPush_eq_full_iff hv

/-- Settles O21: the two equivalences for POP and FRONT, and the answers TNEXT has. -/
theorem emptyExactlyOnPopOrFrontWhenEmpty : Obligations.EmptyExactlyOnPopOrFrontWhenEmpty := fun _ =>
  ⟨execPop_eq_empty_iff, execFront_eq_empty_iff, fun _ _ _ => execTnext_status_ne_empty⟩

/-- Settles O23: a TNEXT that completes answers END when nothing remains and otherwise OK. -/
theorem endExactlyWhenNothingRemains : Obligations.EndExactlyWhenNothingRemains := fun _ =>
  execTnext_eq_seqEnd_iff

/-- Settles O24: a step with a next state leaves the controller alone or records OK, and an UNINIT fault
carries the state before the edge. -/
theorem conditionChangesNothing : Obligations.ConditionChangesNothing := by
  refine ⟨fun s t o older h ho hne => ?_, fun s t h => ?_⟩
  · obtain ⟨rest, x, rfl⟩ | ⟨r, hok, ht⟩ := step_next_unchanged_or_ok h
    · obtain ⟨rfl, -⟩ := List.cons.inj ho
      exact ⟨sameController_record_withInputs s rest _, rfl, rfl⟩
    · obtain ⟨rfl, -⟩ := List.cons.inj (ho.symm.trans ht)
      exact absurd hok hne
  · obtain ⟨_, rest, -, -, -, rfl⟩ := step_uninit h
    exact ⟨sameController_record_withInputs s rest _, rfl⟩

end Sys2Proof.Machine
end

section
/-! The reset cycle in forward form (70_reset_and_hazards.md R110, R112): it always has a next state, whatever
the state and the command port. -/

namespace Sys2Proof.Machine

/-- Reset wins over the command port and never fails (70_reset_and_hazards.md R112). -/
theorem step_of_rst {s : State} {c : CycleInput} {rest : List CycleInput} (hin : s.inputs = c :: rest)
    (hr : c.rst = true) : step s = resetCycle { s with inputs := rest } := by
  rw [step_of_inputs hin, cycle_of_rst hr]

/-- Settles O6: the step is the reset cycle, and the outputs it records do not depend on the host's list. -/
theorem resetCycleEffect : Obligations.ResetCycleEffect := by
  intro s c rest hin hr
  have hobs : observe { s with inputs := rest } okNoData = observe s ⟨.ok, false, 0⟩ :=
    observe_congr rfl rfl rfl _
  rw [step_of_rst hin hr, resetCycle, respond, hobs, State.record, State.afterReset]

end Sys2Proof.Machine
end

section
/-! The encoding (30_encoding.md sections 1 and 3): the listing word and the port value of a command, and the
command of a port value. -/

namespace Sys2Proof

open Sys2Proof.Machine

/-- The eight values of the port's `op` (30_encoding.md R48). -/
theorem op_cases (op : BitVec 3) :
    op = 0 ∨ op = 1 ∨ op = 2 ∨ op = 3 ∨ op = 4 ∨ op = 5 ∨ op = 6 ∨ op = 7 := by
  revert op
  decide

/-- Only PUSH has an operand, so the command of any other code does not depend on `wdata` (30_encoding.md
R49). -/
theorem decodeOp_of_ne_push {op : BitVec 3} (h : op ≠ 1) (v w : Nat) : decodeOp op v = decodeOp op w := by
  obtain rfl | rfl | rfl | rfl | rfl | rfl | rfl | rfl := op_cases op
  case inr.inl => exact absurd rfl h
  all_goals rfl

theorem wdataOf_decodeOp (op : BitVec 3) (w : Nat) : wdataOf (decodeOp op w) = if op = 1 then w else 0 := by
  obtain rfl | rfl | rfl | rfl | rfl | rfl | rfl | rfl := op_cases op <;> rfl

theorem decodeOp_opCode (i : Instr) : decodeOp (opCode i) (wdataOf i) = i := by
  cases i <;> rfl

/-- A command is well formed exactly when the port can carry what the assembler drives on `wdata`
(30_encoding.md R54). -/
theorem wellFormed_iff (p : Params) (i : Instr) : WellFormed p i = true ↔ wdataOf i < 2 ^ p.dw := by
  cases i <;> simp [WellFormed, wdataOf]

/-- What the port can carry is a well-formed command (30_encoding.md R47, R48). -/
theorem wellFormed_decodeOp {p : Params} {w : Nat} (hw : w < 2 ^ p.dw) (op : BitVec 3) :
    WellFormed p (decodeOp op w) = true := by
  rw [wellFormed_iff, wdataOf_decodeOp]
  split
  · exact hw
  · exact Nat.two_pow_pos _

/-- The listing word of a command has the fields the port carries (30_encoding.md R56). -/
theorem decodeWord_encode (p : Params) (i : Instr) :
    decodeWord p (encode i) = decodePort p (opCode i) (wdataOf i) := by
  obtain ⟨hop, hw⟩ := Laws.wordFields_of_shape (wdataOf i) (opCode i)
  rw [decodeWord, encode, hop, hw]

theorem decodePort_opCode {p : Params} {i : Instr} (h : WellFormed p i = true) :
    decodePort p (opCode i) (wdataOf i) = .ok i := by
  rw [decodePort_of_lt ((wellFormed_iff p i).1 h), decodeOp_opCode]

/-- The word of a well-formed command has `DW + 3` bits (30_encoding.md R56). -/
theorem encode_lt {p : Params} {i : Instr} (h : WellFormed p i = true) : encode i < 2 ^ (p.dw + 3) := by
  have hw : wdataOf i < 2 ^ p.dw := (wellFormed_iff p i).1 h
  have hop : (opCode i).toNat < 2 ^ 3 := (opCode i).isLt
  rw [encode, pow_add]
  omega

/-- The canonical word of a command on the port (30_encoding.md R53, R56). -/
theorem encode_decodeOp (op : BitVec 3) (w : Nat) :
    encode (decodeOp op w) = if op = 1 then w * 8 + op.toNat else op.toNat := by
  rw [encode, wdataOf_decodeOp, opCode_decodeOp]
  split <;> simp

theorem wordOp_toNat (w : Nat) : (wordOp w).toNat = w % 8 := rfl

theorem wordOp_eq_push_iff (w : Nat) : wordOp w = 1 ↔ w % 8 = 1 := by
  rw [← wordOp_toNat, BitVec.toNat_eq]
  rfl

theorem wordWdata_lt_iff (w n : Nat) : wordWdata w < 2 ^ n ↔ w < 2 ^ (n + 3) := by
  rw [wordWdata, pow_add]
  omega

/-! ### The obligations -/

/-- Settles O2: the listing word has the fields of the port value, and those decode to the command. -/
theorem decodeEncodeRoundTrip : Obligations.DecodeEncodeRoundTrip := fun p i h =>
  ⟨encode_lt h, (decodeWord_encode p i).trans (decodePort_opCode h), decodePort_opCode h⟩

/-- Settles O3: the command is the one its two fields decode to, and a longer word has too wide a `wdata`. -/
theorem everyPortWordIsOneCommand : Obligations.EveryPortWordIsOneCommand := by
  refine fun p w => ⟨fun h => ?_, fun h => if_neg fun hw => ?_⟩
  · have hw : wordWdata w < 2 ^ p.dw := (wordWdata_lt_iff w p.dw).2 h
    refine ⟨decodeOp (wordOp w) (wordWdata w), decodePort_of_lt hw _, wellFormed_decodeOp hw _, ?_, ?_⟩
    · rw [opCode_decodeOp, wordOp_toNat]
    · rw [encode_decodeOp, wordOp_toNat]
      simp only [wordOp_eq_push_iff, wordWdata]
      split
      · omega
      · rfl
  · exact absurd ((wordWdata_lt_iff w p.dw).1 hw) (Nat.not_lt.2 h)

/-- Settles O1: each word is evaluated. -/
theorem listedWordsDecode : Obligations.ListedWordsDecode := by
  unfold Obligations.ListedWordsDecode
  decide

/-- Settles O4: the codes are a finite table. -/
theorem statusCodesAreTabled : Obligations.StatusCodesAreTabled := by
  refine ⟨by decide, fun x => ?_, rfl, rfl⟩
  cases x <;> rfl

end Sys2Proof
end

section
/-! The queue as consecutive slots (10_state.md R21, R22): the values read from `n` slots on from an address,
with wraparound. `contents` and `remaining` are both such readings. -/

namespace Sys2Proof.Machine

/-- Equal offsets below `CAPACITY` are the only ones that reach one slot (10_state.md R21). -/
theorem offset_inj {capacity start i j : Nat} (hi : i < capacity) (hj : j < capacity)
    (h : (start + i) % capacity = (start + j) % capacity) : i = j :=
  (Nat.ModEq.add_left_cancel' start h).eq_of_lt_of_lt hi hj

/-- The slot after `start` is the start of the rest. -/
theorem offset_incWrap {capacity start : Nat} (h : start < capacity) (i : Nat) :
    (incWrap capacity start + i) % capacity = (start + (i + 1)) % capacity := by
  rw [incWrap_eq_mod h, Nat.mod_add_mod, Nat.add_assoc, Nat.add_comm 1 i]

/-- The slot after the `n`-th is the `n + 1`-st. -/
theorem incWrap_offset {capacity : Nat} (hc : 0 < capacity) (start n : Nat) :
    incWrap capacity ((start + n) % capacity) = (start + (n + 1)) % capacity := by
  rw [incWrap_eq_mod (Nat.mod_lt _ hc), Nat.mod_add_mod, Nat.add_assoc]

/-- The values of the `n` slots from `start` on. -/
def slotsFrom (m : Memory) (capacity start n : Nat) : List Elem :=
  (List.range n).filterMap fun i => m.read ((start + i) % capacity)

theorem contents_eq_slotsFrom (s : State) :
    contents s = slotsFrom s.storage s.params.capacity s.head s.count := rfl

theorem remaining_eq_slotsFrom (s : State) :
    remaining s = slotsFrom s.storage s.params.capacity s.tcur s.trem := rfl

section
variable {m : Memory} {capacity start : Nat}

@[simp] theorem slotsFrom_zero : slotsFrom m capacity start 0 = [] := rfl

theorem slotsFrom_one {v : Elem} (hv : m.read (start % capacity) = some v) :
    slotsFrom m capacity start 1 = [v] := by
  simp [slotsFrom, hv]

/-- The reading depends on the slots read alone. -/
theorem slotsFrom_congr {m' : Memory} {start' n : Nat}
    (h : ∀ i, i < n → m'.read ((start' + i) % capacity) = m.read ((start + i) % capacity)) :
    slotsFrom m' capacity start' n = slotsFrom m capacity start n :=
  List.filterMap_congr fun i hi => h i (List.mem_range.1 hi)

/-- A reading goes on where its first part ends. -/
theorem slotsFrom_add (a b : Nat) :
    slotsFrom m capacity start (a + b) =
      slotsFrom m capacity start a ++ slotsFrom m capacity (start + a) b := by
  simp only [slotsFrom, List.range_add, List.filterMap_append, List.filterMap_map, Nat.add_assoc]
  rfl

theorem slotsFrom_succ {v : Elem} (hs : start < capacity) (hv : m.read start = some v) (n : Nat) :
    slotsFrom m capacity start (n + 1) = v :: slotsFrom m capacity (incWrap capacity start) n := by
  have hone : slotsFrom m capacity start 1 = [v] := slotsFrom_one (by rwa [Nat.mod_eq_of_lt hs])
  have hrest : slotsFrom m capacity (start + 1) n = slotsFrom m capacity (incWrap capacity start) n :=
    slotsFrom_congr fun i _ => by rw [offset_incWrap hs, Nat.add_assoc, Nat.add_comm 1 i]
  rw [Nat.add_comm n 1, slotsFrom_add, hone, hrest, List.singleton_append]

theorem slotsFrom_snoc {v : Elem} {n : Nat} (hv : m.read ((start + n) % capacity) = some v) :
    slotsFrom m capacity start (n + 1) = slotsFrom m capacity start n ++ [v] := by
  rw [slotsFrom_add, slotsFrom_one hv]

end

section
variable {s : State}

/-! ### The queue and the traversal of a constructed state -/

theorem Constructed.contents_length (h : Constructed s) : (contents s).length = s.count :=
  h.contents_getElem?.1

theorem Constructed.contents_eq_nil_iff (h : Constructed s) : contents s = [] ↔ s.count = 0 := by
  rw [← h.contents_length, List.length_eq_zero_iff]

/-- The oldest element is read at `head`, the others from the next slot on. -/
theorem Constructed.contents_cons (h : Constructed s) (hc : 0 < s.count) :
    ∃ v, s.storage.read s.head = some v ∧
      contents s = v :: slotsFrom s.storage s.params.capacity
        (incWrap s.params.capacity s.head) (s.count - 1) := by
  obtain ⟨v, hv⟩ := h.read_head hc
  refine ⟨v, hv, ?_⟩
  rw [contents_eq_slotsFrom, ← slotsFrom_succ h.head_lt hv, Nat.sub_add_cancel hc]

/-- The next element to yield is read at the cursor, a valid slot, the others from the next slot on. -/
theorem Constructed.remaining_cons (h : Constructed s) (hr : 0 < s.trem) :
    ∃ v, slotValid s s.tcur = true ∧ s.storage.read s.tcur = some v ∧
      remaining s = v :: slotsFrom s.storage s.params.capacity
        (incWrap s.params.capacity s.tcur) (s.trem - 1) := by
  obtain ⟨v, hslot, hlt, hv⟩ := h.read_cursor hr
  refine ⟨v, (slotValid_iff s s.tcur).2 ⟨_, hlt, hslot.symm⟩, hv, ?_⟩
  rw [remaining_eq_slotsFrom, ← slotsFrom_succ h.tcur_lt hv, Nat.sub_add_cancel hr]

theorem remaining_of_trem_zero (hr : s.trem = 0) : remaining s = [] := by
  rw [remaining_eq_slotsFrom, hr, slotsFrom_zero]

/-- The traversal's slots are the last `trem` of the queue's (10_state.md R22). -/
theorem Constructed.remaining_eq_drop (h : Constructed s) :
    remaining s = (contents s).drop (s.count - s.trem) := by
  have hle : s.count - s.trem ≤ s.count := Nat.sub_le _ _
  have hsplit : contents s =
      slotsFrom s.storage s.params.capacity s.head (s.count - s.trem) ++ remaining s := by
    have hcur : remaining s =
        slotsFrom s.storage s.params.capacity (s.head + (s.count - s.trem)) s.trem :=
      slotsFrom_congr fun j hj => by rw [h.cursor j hj]
    rw [hcur, ← slotsFrom_add, Nat.sub_add_cancel h.trem_le, contents_eq_slotsFrom]
  have hlen : (slotsFrom s.storage s.params.capacity s.head (s.count - s.trem)).length =
      s.count - s.trem :=
    (filterMap_range_getElem? fun i hi => h.written i (Nat.lt_of_lt_of_le hi hle)).1
  rw [hsplit, List.drop_left' hlen]

theorem Constructed.remaining_length (h : Constructed s) : (remaining s).length = s.trem := by
  have hle := h.trem_le
  rw [h.remaining_eq_drop, List.length_drop, h.contents_length]
  omega

end

/-- Settles O46: the lengths, and the traversal's slots as the last of the queue's. -/
theorem traversalIsQueueSuffix : Obligations.TraversalIsQueueSuffix := fun _ h hi =>
  have c := h.constructed hi
  ⟨c.contents_length, c.remaining_length, c.remaining_eq_drop⟩

end Sys2Proof.Machine
end

section
/-! The state each command leaves (40_queue_ops.md section 4, 41_traversal.md section 2): the five register
updates, that each keeps the invariant, and what each does to the queue. -/

namespace Sys2Proof.Machine

/-! ### The register updates -/

/-- The update of a PUSH that stores (40_queue_ops.md R62). -/
def State.pushed (s : State) (v : Elem) : State :=
  { s with
    storage := memWrite s s.tail v
    tail := incWrap s.params.capacity s.tail
    count := s.count + 1
    trem := 0 }

/-- The update of a POP that removes (40_queue_ops.md R63). -/
def State.popped (s : State) : State :=
  { s with head := incWrap s.params.capacity s.head, count := s.count - 1, trem := 0 }

/-- The update of CLEAR (40_queue_ops.md R65). -/
def State.cleared (s : State) : State := { s with head := 0, tail := 0, count := 0, tcur := 0, trem := 0 }

/-- The update of TRAV (41_traversal.md R70). -/
def State.traversing (s : State) : State := { s with tcur := s.head, trem := s.count }

/-- The update of a TNEXT that yields (41_traversal.md R71). -/
def State.yielded (s : State) : State :=
  { s with tcur := incWrap s.params.capacity s.tcur, trem := s.trem - 1 }

/-- The state a command leaves in a constructed machine, before its outputs are recorded. -/
def closingEdge (i : Instr) (s : State) : State :=
  match i with
  | .nop => s
  | .push v => if s.count = s.params.capacity then s else s.pushed v
  | .pop => if s.count = 0 then s else s.popped
  | .front => s
  | .clear => s.cleared
  | .trav => s.traversing
  | .tnext => if s.trem = 0 then s else s.yielded
  | .ill => s

section
variable {s : State}

theorem closingEdge_push_of_ne (hc : s.count ≠ s.params.capacity) (v : Elem) :
    closingEdge (.push v) s = s.pushed v := if_neg hc

theorem closingEdge_push_of_full (hc : s.count = s.params.capacity) (v : Elem) :
    closingEdge (.push v) s = s := if_pos hc

theorem closingEdge_pop_of_pos (hc : 0 < s.count) : closingEdge .pop s = s.popped := if_neg hc.ne'

theorem closingEdge_pop_of_zero (hc : s.count = 0) : closingEdge .pop s = s := if_pos hc

theorem closingEdge_tnext_of_pos (hr : 0 < s.trem) : closingEdge .tnext s = s.yielded := if_neg hr.ne'

theorem closingEdge_tnext_of_zero (hr : s.trem = 0) : closingEdge .tnext s = s := if_pos hr

/-- No command touches the build parameters, `init` or the host's side (10_state.md section 4). -/
theorem closingEdge_frame (i : Instr) (s : State) :
    (closingEdge i s).params = s.params ∧ (closingEdge i s).init = s.init ∧
      (closingEdge i s).inputs = s.inputs ∧ (closingEdge i s).trace = s.trace := by
  cases i with
  | push v => rw [closingEdge]; split <;> exact ⟨rfl, rfl, rfl, rfl⟩
  | pop => rw [closingEdge]; split <;> exact ⟨rfl, rfl, rfl, rfl⟩
  | tnext => rw [closingEdge]; split <;> exact ⟨rfl, rfl, rfl, rfl⟩
  | nop | front | clear | trav | ill => exact ⟨rfl, rfl, rfl, rfl⟩

@[simp] theorem closingEdge_params (i : Instr) (s : State) : (closingEdge i s).params = s.params :=
  let ⟨h, _, _, _⟩ := closingEdge_frame i s
  h

@[simp] theorem closingEdge_init (i : Instr) (s : State) : (closingEdge i s).init = s.init :=
  let ⟨_, h, _, _⟩ := closingEdge_frame i s
  h

@[simp] theorem closingEdge_inputs (i : Instr) (s : State) : (closingEdge i s).inputs = s.inputs :=
  let ⟨_, _, h, _⟩ := closingEdge_frame i s
  h

@[simp] theorem closingEdge_trace (i : Instr) (s : State) : (closingEdge i s).trace = s.trace :=
  let ⟨_, _, _, h⟩ := closingEdge_frame i s
  h

/-! ### Each update keeps the invariant of a constructed state -/

/-- `tail` is the slot after the last element (10_state.md R20). -/
theorem Constructed.slotAt_count (h : Constructed s) : slotAt s s.count = s.tail := h.tail_eq.symm

/-- A valid slot is not the one the next PUSH writes. -/
theorem Constructed.slotAt_ne_tail (h : Constructed s) (hc : s.count < s.params.capacity) {i : Nat}
    (hi : i < s.count) : slotAt s i ≠ s.tail := fun he =>
  absurd (offset_inj (hi.trans hc) hc (he.trans h.tail_eq)) hi.ne

theorem Constructed.pushed (h : Constructed s) (hc : s.count < s.params.capacity) (v : Elem) :
    Constructed (s.pushed v) where
  head_lt := h.head_lt
  tail_lt := incWrap_lt h.tail_lt
  tcur_lt := h.tcur_lt
  count_le := hc
  trem_le := Nat.zero_le _
  tail_eq := by
    show incWrap s.params.capacity s.tail = _
    rw [h.tail_eq, incWrap_offset s.params.capacity_pos]
    rfl
  written := fun i hi => by
    show ((memWrite s s.tail v).read (slotAt s i)).isSome = true
    rw [memWrite_read]
    split
    · rfl
    · rename_i hne
      refine h.written i (Nat.lt_of_le_of_ne (Nat.le_of_lt_succ hi) fun hic => hne ?_)
      rw [hic, h.slotAt_count]
  cursor := fun j hj => absurd hj (Nat.not_lt_zero j)

/-- The slots after the oldest are those the queue holds once its head has moved on. -/
theorem Constructed.slotAt_popped (h : Constructed s) (i : Nat) : slotAt s.popped i = slotAt s (i + 1) :=
  offset_incWrap h.head_lt i

theorem Constructed.popped (h : Constructed s) (hc : 0 < s.count) : Constructed s.popped where
  head_lt := incWrap_lt h.head_lt
  tail_lt := h.tail_lt
  tcur_lt := h.tcur_lt
  count_le := (Nat.sub_le _ _).trans h.count_le
  trem_le := Nat.zero_le _
  tail_eq := by
    have hslot : slotAt s.popped (s.count - 1) = slotAt s (s.count - 1 + 1) := h.slotAt_popped _
    rw [Nat.sub_add_cancel hc, h.slotAt_count] at hslot
    exact hslot.symm
  written := fun i hi => by
    rw [h.slotAt_popped]
    exact h.written (i + 1) (Nat.add_lt_of_lt_sub hi)
  cursor := fun j hj => absurd hj (Nat.not_lt_zero j)

/-- CLEAR and reset leave registers of the empty queue (40_queue_ops.md R65, 70_reset_and_hazards.md R110). -/
theorem Constructed.of_zero (hh : s.head = 0) (ht : s.tail = 0) (hc : s.count = 0) (hu : s.tcur = 0)
    (hr : s.trem = 0) : Constructed s where
  head_lt := hh ▸ s.params.capacity_pos
  tail_lt := ht ▸ s.params.capacity_pos
  tcur_lt := hu ▸ s.params.capacity_pos
  count_le := hc ▸ Nat.zero_le _
  trem_le := hr ▸ Nat.zero_le _
  tail_eq := by rw [hh, ht, hc, Nat.zero_mod]
  written := fun i hi => absurd hi (hc ▸ Nat.not_lt_zero i)
  cursor := fun j hj => absurd hj (hr ▸ Nat.not_lt_zero j)

theorem Constructed.traversing (h : Constructed s) : Constructed s.traversing where
  head_lt := h.head_lt
  tail_lt := h.tail_lt
  tcur_lt := h.head_lt
  count_le := h.count_le
  trem_le := Nat.le_refl s.count
  tail_eq := h.tail_eq
  written := h.written
  cursor := fun j _ => by
    show (s.head + j) % _ = (s.head + (s.count - s.count) + j) % _
    rw [Nat.sub_self, Nat.add_zero]

theorem Constructed.yielded (h : Constructed s) (hr : 0 < s.trem) : Constructed s.yielded where
  head_lt := h.head_lt
  tail_lt := h.tail_lt
  tcur_lt := incWrap_lt h.tcur_lt
  count_le := h.count_le
  trem_le := (Nat.sub_le _ _).trans h.trem_le
  tail_eq := h.tail_eq
  written := h.written
  cursor := fun j hj => by
    have hle := h.trem_le
    have hcur := h.cursor (j + 1) (Nat.add_lt_of_lt_sub hj)
    have hplace : s.head + (s.count - s.trem) + (j + 1) = s.head + (s.count - (s.trem - 1)) + j := by omega
    rw [hplace, ← offset_incWrap h.tcur_lt] at hcur
    exact hcur

/-- What a cycle records is no part of the invariant. -/
theorem Inv.record (h : Inv s) (o : Observation) : Inv (s.record o) :=
  ⟨h.storage_wf, fun hi =>
    have c := h.constructed hi
    ⟨c.head_lt, c.tail_lt, c.tcur_lt, c.count_le, c.trem_le, c.tail_eq, c.written, c.cursor⟩⟩

theorem Inv.afterReset (h : Inv s) : Inv s.afterReset :=
  ⟨h.storage_wf, fun _ => .of_zero rfl rfl rfl rfl rfl⟩

/-- Every command the port carries keeps the invariant of a constructed machine (10_state.md section 3). -/
theorem inv_closingEdge (h : Inv s) (hi : s.init = true) {i : Instr} (hw : WellFormed s.params i = true) :
    Inv (closingEdge i s) := by
  have c : Constructed s := h.constructed hi
  cases i with
  | nop => exact h
  | push v =>
    obtain hc | hc := c.count_le.eq_or_lt
    · rwa [closingEdge_push_of_full hc]
    · rw [closingEdge_push_of_ne hc.ne]
      have hv : v < 2 ^ s.params.dw := by simpa [WellFormed] using hw
      exact ⟨Memory.wf_write h.storage_wf c.tail_lt hv, fun _ => c.pushed hc v⟩
  | pop =>
    obtain hc | hc := Nat.eq_zero_or_pos s.count
    · rwa [closingEdge_pop_of_zero hc]
    · rw [closingEdge_pop_of_pos hc]
      exact ⟨h.storage_wf, fun _ => c.popped hc⟩
  | front => exact h
  | clear => exact ⟨h.storage_wf, fun _ => .of_zero rfl rfl rfl rfl rfl⟩
  | trav => exact ⟨h.storage_wf, fun _ => c.traversing⟩
  | tnext =>
    obtain hr | hr := Nat.eq_zero_or_pos s.trem
    · rwa [closingEdge_tnext_of_zero hr]
    · rw [closingEdge_tnext_of_pos hr]
      exact ⟨h.storage_wf, fun _ => c.yielded hr⟩
  | ill => exact h

/-! ### What each update does to the queue -/

theorem Constructed.contents_pushed (h : Constructed s) (hc : s.count < s.params.capacity) (v : Elem) :
    contents (s.pushed v) = contents s ++ [v] := by
  have hread : ∀ i, (s.pushed v).storage.read (slotAt s i) =
      if slotAt s i = s.tail then some v else s.storage.read (slotAt s i) :=
    fun i => memWrite_read s s.tail (slotAt s i) v
  have hold : slotsFrom (s.pushed v).storage s.params.capacity s.head s.count = contents s :=
    slotsFrom_congr fun i hi => (hread i).trans (if_neg (h.slotAt_ne_tail hc hi))
  have hnew : (s.pushed v).storage.read (slotAt s s.count) = some v :=
    (hread s.count).trans (if_pos h.slotAt_count)
  rw [← hold]
  exact slotsFrom_snoc hnew

theorem Constructed.contents_popped (h : Constructed s) (hc : 0 < s.count) :
    ∃ v, s.storage.read s.head = some v ∧ contents s = v :: contents s.popped :=
  h.contents_cons hc

theorem Constructed.remaining_yielded (h : Constructed s) (hr : 0 < s.trem) :
    ∃ v, slotValid s s.tcur = true ∧ s.storage.read s.tcur = some v ∧
      remaining s = v :: remaining s.yielded :=
  h.remaining_cons hr

/-! ### Every command answers as the source's operation on the queue -/

/-- In `s` the command `i` answers and changes the queue as the source's operation says. -/
structure Refines (s : State) (i : Instr) : Prop where
  exec_eq : exec i s = respond s (Fifo.apply s.params.capacity (fifo s) i).2 (closingEdge i s)
  fifo_eq : fifo (closingEdge i s) = (Fifo.apply s.params.capacity (fifo s) i).1

/-- The four facts a case of a command rests on: its operation, its outcome, its edge, its queue. -/
theorem Refines.of_apply {i : Instr} {q : Fifo} {r : Response} {t : State}
    (ha : Fifo.apply s.params.capacity (fifo s) i = (q, r)) (he : exec i s = respond s r t)
    (ht : closingEdge i s = t) (hq : fifo t = q) : Refines s i :=
  ⟨by rw [ha, ht, he], by rw [ha, ht, hq]⟩

theorem refines_push (h : Constructed s) (hi : s.init = true) {v : Elem} (hv : v < 2 ^ s.params.dw) :
    Refines s (.push v) := by
  have hlen : (fifo s).items.length = s.count := h.contents_length
  obtain hc | hc := h.count_le.eq_or_lt
  · exact .of_apply (if_pos (hlen.trans hc)) (execPush_of_full hv hi hc) (closingEdge_push_of_full hc v) rfl
  · refine .of_apply (if_neg (hlen ▸ hc.ne)) (execPush_of_count_lt hv hi h.tail_lt hc)
      (closingEdge_push_of_ne hc.ne v) ?_
    exact congrArg₂ Fifo.mk (h.contents_pushed hc v) rfl

theorem refines_pop (h : Constructed s) (hi : s.init = true) : Refines s .pop := by
  obtain hc | hc := Nat.eq_zero_or_pos s.count
  · have hnil : (fifo s).items = [] := h.contents_eq_nil_iff.2 hc
    exact .of_apply (by simp only [Fifo.apply, hnil]) (execPop_of_count_zero hi hc)
      (closingEdge_pop_of_zero hc) rfl
  · obtain ⟨v, -, hcons⟩ := h.contents_popped hc
    exact .of_apply (q := ⟨contents s.popped, []⟩) (by simp only [Fifo.apply, fifo, hcons])
      (execPop_of_count_pos hi h.head_lt hc h.count_le) (closingEdge_pop_of_pos hc) rfl

theorem refines_front (h : Constructed s) (hi : s.init = true) : Refines s .front := by
  obtain hc | hc := Nat.eq_zero_or_pos s.count
  · have hnil : (fifo s).items = [] := h.contents_eq_nil_iff.2 hc
    exact .of_apply (by simp only [Fifo.apply, hnil]) (execFront_of_count_zero hi hc) rfl rfl
  · obtain ⟨v, hv, hcons⟩ := h.contents_popped hc
    exact .of_apply (by simp only [Fifo.apply, fifo, hcons]) (execFront_of_read hi h.head_lt hc h.count_le hv)
      rfl rfl

theorem refines_tnext (h : Constructed s) (hi : s.init = true) : Refines s .tnext := by
  obtain hr | hr := Nat.eq_zero_or_pos s.trem
  · have hnil : (fifo s).left = [] := remaining_of_trem_zero hr
    exact .of_apply (by simp only [Fifo.apply, hnil]) (execTnext_of_trem_zero hi hr)
      (closingEdge_tnext_of_zero hr) rfl
  · obtain ⟨v, hvalid, hv, hcons⟩ := h.remaining_yielded hr
    exact .of_apply (q := ⟨contents s, remaining s.yielded⟩) (by simp only [Fifo.apply, fifo, hcons])
      (execTnext_of_read hi hr (h.trem_le.trans h.count_le) h.tcur_lt hvalid hv)
      (closingEdge_tnext_of_pos hr) rfl

/-- Every command the port carries refines its operation on the queue in a constructed machine. -/
theorem Inv.refines (h : Inv s) (hi : s.init = true) {i : Instr} (hw : WellFormed s.params i = true) :
    Refines s i := by
  have c : Constructed s := h.constructed hi
  cases i with
  | nop => exact .of_apply rfl rfl rfl rfl
  | push v => exact refines_push c hi (by simpa [WellFormed] using hw)
  | pop => exact refines_pop c hi
  | front => exact refines_front c hi
  | clear => exact .of_apply rfl (execClear_of_init hi) rfl rfl
  | trav => exact .of_apply rfl (execTrav_of_init hi c.head_lt c.count_le) rfl rfl
  | tnext => exact refines_tnext c hi
  | ill => exact .of_apply rfl rfl rfl rfl

end

/-! ### The obligations -/

/-- Settles O45: the command refines its operation, and what it records is no part of the queue. -/
theorem controllerRefinesQueue : Obligations.ControllerRefinesQueue := fun _ _ h hi hw =>
  have hr := h.refines hi hw
  ⟨_, hr.exec_eq, hr.fifo_eq, by rw [State.record_trace, closingEdge_trace]⟩

end Sys2Proof.Machine
end

section
/-! What a command that completes does, said once for all commands and every state, constructed or not: the
status it answers and the state it leaves. -/

namespace Sys2Proof.Machine

/-- The status a command answers when the machine is constructed (60_exceptions.md R91). -/
def commandStatus (i : Instr) (s : State) : Status :=
  match i with
  | .nop => .ok
  | .push _ => if s.count = s.params.capacity then .full else .ok
  | .pop => if s.count = 0 then .empty else .ok
  | .front => if s.count = 0 then .empty else .ok
  | .clear => .ok
  | .trav => .ok
  | .tnext => if s.trem = 0 then .seqEnd else .ok
  | .ill => .illegal

/-- NOP and the reserved code, the two commands that complete before the first reset (60_exceptions.md R95). -/
def neverUninit (i : Instr) : Prop := i = .nop ∨ i = .ill

section
variable {s : State}

theorem closingEdge_of_neverUninit {i : Instr} (h : neverUninit i) (s : State) : closingEdge i s = s := by
  obtain rfl | rfl := h <;> rfl

/-- A command that completes was let through by the guards, answers its status and leaves its edge. -/
structure Completes (i : Instr) (s t : State) : Prop where
  wellFormed : WellFormed s.params i = true
  guarded : s.init = true ∨ neverUninit i
  left : ∃ r, r.status = commandStatus i s ∧ t = (closingEdge i s).record (observe s r)

theorem exec_next {i : Instr} {t : State} (h : exec i s = .next t) : Completes i s t := by
  cases i with
  | nop => exact ⟨rfl, .inr (.inl rfl), _, rfl, execNop_next h⟩
  | push v =>
    obtain ⟨hv, hi, hcase⟩ := execPush_next h
    have hw : WellFormed s.params (.push v) = true := by simpa [WellFormed] using hv
    obtain ⟨hc, rfl⟩ | ⟨hc, -, rfl⟩ := hcase
    · exact ⟨hw, .inl hi, noData .full, (if_pos hc).symm, by rw [closingEdge_push_of_full hc]⟩
    · exact ⟨hw, .inl hi, okNoData, (if_neg hc.ne).symm,
        by rw [closingEdge_push_of_ne hc.ne, State.pushed]⟩
  | pop =>
    obtain ⟨hi, ⟨hc, rfl⟩ | ⟨hc, -, -, rfl⟩⟩ := execPop_next h
    · exact ⟨rfl, .inl hi, noData .empty, (if_pos hc).symm, by rw [closingEdge_pop_of_zero hc]⟩
    · exact ⟨rfl, .inl hi, okNoData, (if_neg hc.ne').symm,
        by rw [closingEdge_pop_of_pos hc, State.popped]⟩
  | front =>
    obtain ⟨hi, ⟨hc, ht⟩ | ⟨v, hc, -, -, ht⟩⟩ := execFront_next h
    · exact ⟨rfl, .inl hi, noData .empty, (if_pos hc).symm, ht⟩
    · exact ⟨rfl, .inl hi, okData v, (if_neg hc.ne').symm, ht⟩
  | clear =>
    obtain ⟨hi, ht⟩ := execClear_next h
    exact ⟨rfl, .inl hi, okNoData, rfl, ht⟩
  | trav =>
    obtain ⟨hi, -, -, ht⟩ := execTrav_next h
    exact ⟨rfl, .inl hi, okNoData, rfl, ht⟩
  | tnext =>
    obtain ⟨hi, ⟨hr, rfl⟩ | ⟨v, hr, -, -, rfl⟩⟩ := execTnext_next h
    · exact ⟨rfl, .inl hi, noData .seqEnd, (if_pos hr).symm, by rw [closingEdge_tnext_of_zero hr]⟩
    · exact ⟨rfl, .inl hi, okData v, (if_neg hr.ne').symm,
        by rw [closingEdge_tnext_of_pos hr, State.yielded]⟩
  | ill => exact ⟨rfl, .inr (.inr rfl), _, rfl, execIll_next h⟩

/-- A step that completes is a reset cycle, or the command on the port completes. -/
theorem step_completes {t : State} {c : CycleInput} {rest : List CycleInput} (hin : s.inputs = c :: rest)
    (h : step s = .next t) :
    (c.rst = true ∧ t = State.record (State.afterReset { s with inputs := rest }) (observe s okNoData)) ∨
      (c.rst = false ∧ Completes (decodeOp c.op c.wdata) { s with inputs := rest } t) :=
  (step_next_of_inputs hin h).imp_right fun ⟨hr, _, he⟩ => ⟨hr, exec_next he⟩

/-- The code of a command that completes before the first reset (30_encoding.md R48, R50). -/
theorem neverUninit_decodeOp {op : BitVec 3} (h : op = opCode .nop ∨ op = opCode .ill) (w : Nat) :
    neverUninit (decodeOp op w) := by
  obtain rfl | rfl := h
  · exact .inl rfl
  · exact .inr rfl

theorem op_of_neverUninit {op : BitVec 3} {w : Nat} (h : neverUninit (decodeOp op w)) :
    op = opCode .nop ∨ op = opCode .ill := by
  rw [← opCode_decodeOp op w]
  exact h.imp (congrArg opCode) (congrArg opCode)

/-! ### The invariant -/

/-- A command that completes keeps the invariant: before the first reset it changes nothing. -/
theorem Inv.completes {i : Instr} {t : State} (h : Inv s) (hc : Completes i s t) : Inv t := by
  obtain ⟨hw, hg, r, -, rfl⟩ := hc
  refine Inv.record ?_ _
  obtain hi | hn := hg
  · exact inv_closingEdge h hi hw
  · rwa [closingEdge_of_neverUninit hn]

/-- Settles O40: a reset cycle leaves the registers of the empty queue, and a command that completes keeps the
invariant. -/
theorem stepKeepsInvariant : Obligations.StepKeepsInvariant := by
  intro s t h hs
  obtain ⟨c, rest, hin, -⟩ := step_next hs
  obtain ⟨-, rfl⟩ | ⟨-, hc⟩ := step_completes hin hs
  · exact (h.withInputs rest).afterReset.record _
  · exact (h.withInputs rest).completes hc

/-! ### The host's side and `init` -/

/-- Settles O38: reset sets `init` and every command keeps it. -/
theorem onlyResetWritesInit : Obligations.OnlyResetWritesInit := by
  intro s t c rest h hin
  obtain ⟨hr, rfl⟩ | ⟨hr, -, -, r, -, rfl⟩ := step_completes hin h
  · simp [hr]
  · simp [hr]

/-- Settles O39: neither reset nor a command writes the parameters. -/
theorem parametersNeverChange : Obligations.ParametersNeverChange := by
  intro s t h
  obtain ⟨c, rest, hin, -⟩ := step_next h
  obtain ⟨-, rfl⟩ | ⟨-, -, -, r, -, rfl⟩ := step_completes hin h
  · rfl
  · simp

theorem step_next_inputs {t : State} {c : CycleInput} {rest : List CycleInput} (hin : s.inputs = c :: rest)
    (h : step s = .next t) : t.inputs = rest := by
  obtain ⟨-, rfl⟩ | ⟨-, -, -, r, -, rfl⟩ := step_completes hin h
  · rfl
  · simp

/-! ### Progress -/

theorem step_of_fits {c : CycleInput} {rest : List CycleInput} (hin : s.inputs = c :: rest)
    (hr : c.rst = false) (hf : c.fits s.params = true) :
    step s = exec (decodeOp c.op c.wdata) { s with inputs := rest } := by
  rw [step_of_inputs hin]
  exact cycle_of_fits hr (by simpa [CycleInput.fits, hr] using hf)

theorem wellFormed_of_fits {p : Params} {c : CycleInput} (hr : c.rst = false) (hf : c.fits p = true) :
    WellFormed p (decodeOp c.op c.wdata) = true :=
  wellFormed_decodeOp (by simpa [CycleInput.fits, hr] using hf) c.op

/-- In a constructed machine a cycle without reset records the answer of the source's operation. -/
theorem Inv.step_eq {c : CycleInput} {rest : List CycleInput} (h : Inv s) (hi : s.init = true)
    (hin : s.inputs = c :: rest) (hr : c.rst = false) (hf : c.fits s.params = true) :
    step s = respond s (Fifo.apply s.params.capacity (fifo s) (decodeOp c.op c.wdata)).2
      (closingEdge (decodeOp c.op c.wdata) { s with inputs := rest }) := by
  rw [step_of_fits hin hr hf]
  exact ((h.withInputs rest).refines hi (wellFormed_of_fits hr hf)).exec_eq

/-- A cycle of a machine that is constructed, resets, or is given NOP or the reserved code has a next state
(60_exceptions.md R109). -/
theorem Inv.step_progress {c : CycleInput} {rest : List CycleInput} (h : Inv s) (hin : s.inputs = c :: rest)
    (hf : c.fits s.params = true)
    (hboot : s.init = true ∨ c.rst = true ∨ c.op = opCode .nop ∨ c.op = opCode .ill) :
    ∃ t, step s = .next t := by
  cases hr : c.rst with
  | true => exact ⟨_, step_of_rst hin hr⟩
  | false =>
    rw [hr] at hboot
    obtain hi | hrst | hop := hboot
    · exact ⟨_, h.step_eq hi hin hr hf⟩
    · cases hrst
    · rw [step_of_fits hin hr hf]
      obtain hn | hn := neverUninit_decodeOp hop c.wdata
      · exact ⟨_, by rw [hn]; rfl⟩
      · exact ⟨_, by rw [hn]; rfl⟩

/-- Settles O41: progress, and what a step does to `init` and the host's list. -/
theorem constructedMachineNeverStops : Obligations.ConstructedMachineNeverStops := by
  intro s c rest h hi hin hf
  obtain ⟨t, ht⟩ := h.step_progress hin hf (.inl hi)
  exact ⟨t, ht, by rw [onlyResetWritesInit s t c rest ht hin, hi, Bool.true_or], step_next_inputs hin ht⟩

/-- The first cycle of a list that keeps the boot order can run, and the rest keeps it from the next state on
(70_reset_and_hazards.md R114). -/
theorem bootOrder_cons {constructed : Bool} {c : CycleInput} {rest : List CycleInput}
    (h : bootOrder constructed (c :: rest) = true) :
    (constructed = true ∨ c.rst = true ∨ c.op = opCode .nop ∨ c.op = opCode .ill) ∧
      bootOrder (constructed || c.rst) rest = true := by
  cases hr : c.rst with
  | true => exact ⟨.inr (.inl rfl), by simpa [bootOrder, hr] using h⟩
  | false =>
    obtain ⟨hop, hrest⟩ : ((constructed = true ∨ c.op = opCode .nop) ∨ c.op = opCode .ill) ∧
        bootOrder constructed rest = true := by simpa [bootOrder, hr] using h
    exact ⟨by tauto, by simpa using hrest⟩

/-- Settles O42, by induction on the host's list: each cycle makes progress and keeps the invariant. -/
theorem bootedRunIsSafe : Obligations.BootedRunIsSafe := by
  intro s
  generalize hl : s.inputs = cs
  induction cs generalizing s with
  | nil => exact fun h _ _ => ⟨s, rfl, h, hl, rfl⟩
  | cons c rest ih =>
    intro h hboot hfits
    obtain ⟨hfirst, hrest⟩ := bootOrder_cons hboot
    obtain ⟨u, hu⟩ := h.step_progress hl (hfits c List.mem_cons_self) hfirst
    have hinit : u.init = (s.init || c.rst) := onlyResetWritesInit s u c rest hu hl
    have hparams : u.params = s.params := parametersNeverChange s u hu
    obtain ⟨r, htrace⟩ := step_trace (.inl hu)
    obtain ⟨t, hrun, hinv, hin, hlen⟩ := ih u (step_next_inputs hl hu) (stepKeepsInvariant s u h hu)
      (by rwa [hinit]) (fun d hd => by rw [hparams]; exact hfits d (List.mem_cons_of_mem c hd))
    refine ⟨t, (run_succ_of_next hu _).trans hrun, hinv, hin, ?_⟩
    rw [hlen, htrace, List.length_cons, List.length_cons]
    omega

end

end Sys2Proof.Machine
end

section
/-! Runs of commands (30_encoding.md section 3): a constructed machine runs any list of commands, and the
queue it holds goes through the source's operations in turn. -/

namespace Sys2Proof.Machine

/-- The queue after the operations of a list of commands, in turn. -/
def Fifo.run (capacity : Nat) (q : Fifo) (is : List Instr) : Fifo :=
  is.foldl (fun q i => (Fifo.apply capacity q i).1) q

section
variable {capacity : Nat}

theorem Fifo.run_cons (q : Fifo) (i : Instr) (is : List Instr) :
    Fifo.run capacity q (i :: is) = Fifo.run capacity (Fifo.apply capacity q i).1 is := rfl

theorem Fifo.run_append (q : Fifo) (is js : List Instr) :
    Fifo.run capacity q (is ++ js) = Fifo.run capacity (Fifo.run capacity q is) js :=
  List.foldl_append

theorem Fifo.apply_push_items {q : Fifo} (h : q.items.length < capacity) (v : Elem) :
    (Fifo.apply capacity q (.push v)).1.items = q.items ++ [v] := by
  rw [Fifo.apply, if_neg h.ne]

/-- A POP removes the oldest element, if there is one. -/
theorem Fifo.apply_pop_items (q : Fifo) : (Fifo.apply capacity q .pop).1.items = q.items.drop 1 := by
  cases hq : q.items <;> simp [Fifo.apply, hq]

/-- Elements that fit are appended in order. -/
theorem Fifo.run_push_items {q : Fifo} {vs : List Elem} (h : q.items.length + vs.length ≤ capacity) :
    (Fifo.run capacity q (vs.map .push)).items = q.items ++ vs := by
  induction vs generalizing q with
  | nil => exact (List.append_nil q.items).symm
  | cons v vs ih =>
    rw [List.length_cons] at h
    have hpush := Fifo.apply_push_items (q := q) (capacity := capacity) (by omega) v
    rw [List.map_cons, Fifo.run_cons, ih, hpush, List.append_assoc, List.singleton_append]
    rw [hpush, List.length_append, List.length_singleton]
    omega

theorem Fifo.run_pop_items (q : Fifo) (k : Nat) :
    (Fifo.run capacity q (List.replicate k .pop)).items = q.items.drop k := by
  induction k generalizing q with
  | zero => rfl
  | succ k ih =>
    rw [List.replicate_succ, Fifo.run_cons, ih, Fifo.apply_pop_items, List.drop_drop, Nat.add_comm]

/-- The commands of 95_test_vectors.md E4: PUSH each of `old`, then a POP and a PUSH for each of `new`. -/
def fillPopPush (old new : List Elem) : List Instr :=
  old.map .push ++ List.replicate new.length .pop ++ new.map .push

/-- They leave the elements of a full buffer that survive the POPs, and then the new ones. -/
theorem Fifo.run_fillPopPush_items {q : Fifo} {old new : List Elem} (hq : q.items = [])
    (hold : old.length = capacity) (hnew : new.length ≤ capacity) :
    (Fifo.run capacity q (fillPopPush old new)).items = old.drop new.length ++ new := by
  have hfill : (Fifo.run capacity q (old.map .push)).items = old := by
    rw [Fifo.run_push_items (by simp [hq, hold]), hq, List.nil_append]
  have hpop : (Fifo.run capacity (Fifo.run capacity q (old.map .push))
      (List.replicate new.length .pop)).items = old.drop new.length := by
    rw [Fifo.run_pop_items, hfill]
  have hroom : (old.drop new.length).length + new.length ≤ capacity := by
    rw [List.length_drop]
    omega
  rw [fillPopPush, Fifo.run_append, Fifo.run_append, Fifo.run_push_items (hpop ▸ hroom), hpop]

end

/-- The port carries what the assembler drives for a well-formed command (30_encoding.md R54). -/
theorem fits_ofInstr {p : Params} {i : Instr} (hw : WellFormed p i = true) :
    (CycleInput.ofInstr i).fits p = true :=
  decide_eq_true ((wellFormed_iff p i).1 hw)

section
variable {s : State}

/-- A list of commands with operands the port carries runs to its end and does to the queue what the source's
operations do. -/
theorem Inv.run_commands {is : List Instr} (h : Inv s) (hi : s.init = true)
    (hin : s.inputs = is.map CycleInput.ofInstr) (hw : ∀ i ∈ is, WellFormed s.params i = true) :
    ∃ t, SafeRun is.length s t ∧ t.inputs = [] ∧ fifo t = Fifo.run s.params.capacity (fifo s) is := by
  induction is generalizing s with
  | nil => exact ⟨s, rfl, hin, rfl⟩
  | cons i is ih =>
    have hwi : WellFormed s.params i = true := hw i List.mem_cons_self
    have hdec : decodeOp (CycleInput.ofInstr i).op (CycleInput.ofInstr i).wdata = i := decodeOp_opCode i
    have hstep := h.step_eq hi hin rfl (fits_ofInstr hwi)
    rw [hdec] at hstep
    have hs' := h.withInputs (is.map CycleInput.ofInstr)
    have hq := (hs'.refines hi hwi).fifo_eq
    obtain ⟨t, hrun, hnil, hfifo⟩ := ih (stepKeepsInvariant _ _ h hstep) (by simpa using hi) (by simp)
      (fun j hj => by simpa using hw j (List.mem_cons_of_mem i hj))
    refine ⟨t, (run_succ_of_next hstep _).trans hrun, hnil, ?_⟩
    rw [hfifo, Fifo.run_cons]
    simp only [State.record_params, closingEdge_params]
    exact congrArg (Fifo.run s.params.capacity · is) hq

end

theorem wellFormed_of_mem_map_push {p : Params} {vs : List Elem} (h : ∀ v ∈ vs, v < 2 ^ p.dw) :
    ∀ i ∈ vs.map Instr.push, WellFormed p i = true := by
  simpa [WellFormed] using h

/-! ### The obligations -/

/-- Settles O49: the line is CLEAR and then the PUSHes, which append its operands to the empty queue. -/
theorem initLineFillsQueue : Obligations.InitLineFillsQueue := by
  intro s vs h hi hin hlen hv
  have hcmds : s.inputs = (Instr.clear :: vs.map .push).map CycleInput.ofInstr := by
    simp [hin, AsmLine.expand]
  obtain ⟨t, hrun, hnil, hq⟩ := h.run_commands hi hcmds
    (List.forall_mem_cons.2 ⟨rfl, wellFormed_of_mem_map_push hv⟩)
  rw [List.length_cons, List.length_map] at hrun
  refine ⟨t, hrun, hnil, ?_⟩
  calc contents t = (Fifo.run s.params.capacity (fifo s) (.clear :: vs.map .push)).items :=
        congrArg Fifo.items hq
    _ = [] ++ vs := Fifo.run_push_items (q := ⟨[], []⟩) (by simpa using hlen)

/-- Settles O50: the three blocks of commands append, drop and append. -/
theorem wraparoundKeepsOrder : Obligations.WraparoundKeepsOrder := by
  intro s old new h hi hc hold hnew hv hin
  have hcmds : s.inputs = (fillPopPush old new).map CycleInput.ofInstr := by
    simp [hin, fillPopPush, Function.comp_def]
  have hw : ∀ i ∈ fillPopPush old new, WellFormed s.params i = true := by
    refine List.forall_mem_append.2 ⟨List.forall_mem_append.2 ⟨?_, fun i hi => ?_⟩, ?_⟩
    · exact wellFormed_of_mem_map_push fun v hm => hv v (List.mem_append_left _ hm)
    · rw [List.eq_of_mem_replicate hi, WellFormed]
    · exact wellFormed_of_mem_map_push fun v hm => hv v (List.mem_append_right _ hm)
  obtain ⟨t, hrun, hnil, hq⟩ := h.run_commands hi hcmds hw
  have hempty : (fifo s).items = [] := (h.constructed hi).contents_eq_nil_iff.2 hc
  refine ⟨t, by simpa [fillPopPush, Nat.add_assoc] using hrun, hnil, ?_⟩
  exact (congrArg Fifo.items hq).trans (Fifo.run_fillPopPush_items hempty hold hnew)

end Sys2Proof.Machine
end

section
/-! Traversals (41_traversal.md section 4): a run of commands that leave a traversal in progress where it is. -/

namespace Sys2Proof.Machine

/-! ### What a traversal answers -/

/-- The answers of `n` TNEXT when the elements `l` are still to be yielded: the elements, then END. -/
def traversalAnswers (l : List Elem) (n : Nat) : List Response :=
  (l.map okData).take n ++ List.replicate (n - l.length) (noData .seqEnd)

theorem traversalAnswers_zero (l : List Elem) : traversalAnswers l 0 = [] := by
  simp [traversalAnswers]

/-- A TNEXT gives the first answer and leaves the others (41_traversal.md R71). -/
theorem traversalAnswers_succ (capacity : Nat) (q : Fifo) (n : Nat) :
    traversalAnswers q.left (n + 1) =
      (Fifo.apply capacity q .tnext).2 :: traversalAnswers (Fifo.apply capacity q .tnext).1.left n := by
  cases hq : q.left with
  | nil => simp [traversalAnswers, Fifo.apply, hq, List.replicate_succ]
  | cons v l => simp [traversalAnswers, Fifo.apply, hq]

/-- The whole queue and one END. -/
theorem traversalAnswers_length_succ (l : List Elem) :
    traversalAnswers l (l.length + 1) = l.map okData ++ [noData .seqEnd] := by
  simp [traversalAnswers, List.take_of_length_le]

section
variable {c : CycleInput}

theorem tnextResponses_of_tnext (hr : c.rst = false) (hop : c.op = opCode .tnext) (cs : List CycleInput)
    (o : Observation) (os : List Observation) :
    tnextResponses (c :: cs) (o :: os) = o.response :: tnextResponses cs os :=
  if_pos ⟨hr, hop⟩

theorem tnextResponses_of_ne (hop : c.op ≠ opCode .tnext) (cs : List CycleInput) (o : Observation)
    (os : List Observation) : tnextResponses (c :: cs) (o :: os) = tnextResponses cs os :=
  if_neg fun h => hop h.2

theorem tnextCount_of_tnext (hr : c.rst = false) (hop : c.op = opCode .tnext) (cs : List CycleInput) :
    tnextCount (c :: cs) = tnextCount cs + 1 := by
  simp [tnextCount, hr, hop]

theorem tnextCount_of_ne (hop : c.op ≠ opCode .tnext) (cs : List CycleInput) :
    tnextCount (c :: cs) = tnextCount cs := by
  simp [tnextCount, hop]

end

/-! ### What a traversal leaves alone -/

/-- The states agree on the queue: on every item of the controller but the cursor and the down-counter. -/
structure SameQueue (s t : State) : Prop where
  params : t.params = s.params
  init : t.init = s.init
  head : t.head = s.head
  tail : t.tail = s.tail
  count : t.count = s.count
  storage : t.storage = s.storage

section
variable {s t u : State}

theorem SameQueue.refl (s : State) : SameQueue s s := ⟨rfl, rfl, rfl, rfl, rfl, rfl⟩

theorem SameQueue.trans (h : SameQueue s t) (h' : SameQueue t u) : SameQueue s u where
  params := h'.params.trans h.params
  init := h'.init.trans h.init
  head := h'.head.trans h.head
  tail := h'.tail.trans h.tail
  count := h'.count.trans h.count
  storage := h'.storage.trans h.storage

theorem SameQueue.contents_eq (h : SameQueue s t) : contents t = contents s := by
  rw [contents_eq_slotsFrom, contents_eq_slotsFrom, h.params, h.head, h.count, h.storage]

/-- Which commands leave a traversal where it is depends on the queue alone. -/
theorem SameQueue.keepsTraversal_eq (h : SameQueue s t) (c : CycleInput) :
    keepsTraversal t c = keepsTraversal s c := by
  simp only [keepsTraversal, isFull, isEmpty, h.count, h.params]

theorem sameQueue_tnext (s : State) : SameQueue s (closingEdge .tnext s) := by
  rw [closingEdge]
  split <;> exact ⟨rfl, rfl, rfl, rfl, rfl, rfl⟩

/-- What the list of cycles and the recorded outputs are is no matter of the queue. -/
theorem SameQueue.of_withInputs {rest : List CycleInput} (h : SameQueue { s with inputs := rest } t)
    (o : Observation) : SameQueue s (t.record o) :=
  ⟨h.params, h.init, h.head, h.tail, h.count, h.storage⟩

/-- TNEXT apart, a command that leaves a traversal where it is changes nothing (41_traversal.md R73). -/
theorem closingEdge_of_keepsTraversal {c : CycleInput} (h : keepsTraversal s c = true) :
    c.rst = false ∧ (c.op = opCode .tnext ∨
      (c.op ≠ opCode .tnext ∧ closingEdge (decodeOp c.op c.wdata) s = s)) := by
  obtain ⟨rst, op, w⟩ := c
  have hne : ∀ b : BitVec 3, op = b → b ≠ 6 → op ≠ opCode .tnext := fun b ho hb he =>
    hb (ho.symm.trans he)
  simp only [keepsTraversal, Bool.and_eq_true, Bool.or_eq_true, Bool.not_eq_true', beq_iff_eq,
    isFull_eq_true, isEmpty_eq_true] at h
  obtain ⟨hr, ((((hop | hop) | hop) | hop) | ⟨hop, hc⟩) | ⟨hop, hc⟩⟩ := h
  · exact ⟨hr, .inl hop⟩
  · exact ⟨hr, .inr ⟨hne 0 hop (by decide), hop ▸ rfl⟩⟩
  · exact ⟨hr, .inr ⟨hne 3 hop (by decide), hop ▸ rfl⟩⟩
  · exact ⟨hr, .inr ⟨hne 7 hop (by decide), hop ▸ rfl⟩⟩
  · exact ⟨hr, .inr ⟨hne 1 hop (by decide), hop ▸ closingEdge_push_of_full hc w⟩⟩
  · exact ⟨hr, .inr ⟨hne 2 hop (by decide), hop ▸ closingEdge_pop_of_zero hc⟩⟩

/-! ### The run of a traversal -/

/-- `s` runs the cycles `cs` to the end of its list, its TNEXT answer as those of a traversal with the
elements `l` to yield, and the queue is as it was. -/
def Traverses (cs : List CycleInput) (l : List Elem) (s : State) : Prop :=
  ∃ (t : State) (os : List Observation), SafeRun cs.length s t ∧ t.inputs = [] ∧
    t.trace = os.reverse ++ s.trace ∧ tnextResponses cs os = traversalAnswers l (tnextCount cs) ∧
    SameQueue s t

/-- A cycle before such a run, whose answer is the first one if it is a TNEXT. -/
theorem Traverses.cons {c : CycleInput} {cs : List CycleInput} {l l' : List Elem} {r : Response}
    (hs : step s = respond s r t) (htrace : t.trace = s.trace) (hq : SameQueue { s with inputs := cs } t)
    (hans : (c.rst = false ∧ c.op = opCode .tnext ∧
        ∀ n, traversalAnswers l (n + 1) = r :: traversalAnswers l' n) ∨
      (c.op ≠ opCode .tnext ∧ l = l'))
    (h : Traverses cs l' (t.record (observe s r))) : Traverses (c :: cs) l s := by
  obtain ⟨u, os, hrun, hnil, hos, hresp, hqu⟩ := h
  refine ⟨u, observe s r :: os, (run_succ_of_next hs _).trans hrun, hnil, ?_, ?_,
    (hq.of_withInputs _).trans hqu⟩
  · rw [hos, State.record_trace, htrace, List.reverse_cons, List.append_assoc, List.singleton_append]
  · obtain ⟨hr, hop, hl⟩ | ⟨hop, rfl⟩ := hans
    · rw [tnextResponses_of_tnext hr hop, tnextCount_of_tnext hr hop, hl, hresp, observe_response]
    · rw [tnextResponses_of_ne hop, tnextCount_of_ne hop, hresp]

/-- A run of commands that leave the traversal in progress where it is, by induction on the cycles. -/
theorem Inv.traverses_remaining {cs : List CycleInput} (h : Inv s) (hi : s.init = true) (hin : s.inputs = cs)
    (hcs : ∀ d ∈ cs, keepsTraversal s d = true ∧ d.fits s.params = true) :
    Traverses cs (remaining s) s := by
  induction cs generalizing s with
  | nil => exact ⟨s, [], rfl, hin, rfl, (traversalAnswers_zero _).symm, .refl s⟩
  | cons c cs ih =>
    obtain ⟨hk, hf⟩ := hcs c List.mem_cons_self
    obtain ⟨hr, hedge⟩ := closingEdge_of_keepsTraversal (s := { s with inputs := cs }) hk
    have hstep := h.step_eq hi hin hr hf
    have hinv := stepKeepsInvariant _ _ h hstep
    have hrest : ∀ t, SameQueue s t → Inv t → t.inputs = cs → Traverses cs (remaining t) t := by
      refine fun t hq ht htin => ih ht (hq.init.trans hi) htin fun d hd => ?_
      rw [hq.keepsTraversal_eq, hq.params]
      exact hcs d (List.mem_cons_of_mem c hd)
    obtain hop | ⟨hop, hsame⟩ := hedge
    · have hdec : decodeOp c.op c.wdata = .tnext := hop ▸ rfl
      rw [hdec] at hstep hinv
      have hq := sameQueue_tnext { s with inputs := cs }
      refine .cons hstep (by simp) hq (.inl ⟨hr, hop, fun n => ?_⟩)
        (hrest _ (hq.of_withInputs _) hinv (by simp))
      have hleft := congrArg Fifo.left ((h.withInputs cs).refines hi (i := .tnext) rfl).fifo_eq
      have hans := traversalAnswers_succ s.params.capacity (fifo s) n
      exact hans.trans (congrArg (_ :: traversalAnswers · n) hleft.symm)
    · rw [hsame] at hstep hinv
      have hq : SameQueue { s with inputs := cs } { s with inputs := cs } := .refl _
      exact .cons hstep rfl hq (.inr ⟨hop, rfl⟩) (hrest _ (hq.of_withInputs _) hinv rfl)

/-- A TRAV and then such a run: the elements to yield are those of the whole queue. -/
theorem Inv.traverses_contents {c : CycleInput} {cs : List CycleInput} (h : Inv s) (hi : s.init = true)
    (hin : s.inputs = c :: cs) (hr : c.rst = false) (hop : c.op = opCode .trav)
    (hf : c.fits s.params = true) (hcs : ∀ d ∈ cs, keepsTraversal s d = true ∧ d.fits s.params = true) :
    Traverses (c :: cs) (contents s) s := by
  have hdec : decodeOp c.op c.wdata = .trav := hop ▸ rfl
  have hstep := h.step_eq hi hin hr hf
  rw [hdec] at hstep
  exact .cons hstep rfl ⟨rfl, rfl, rfl, rfl, rfl, rfl⟩ (.inr ⟨by rw [hop]; decide, rfl⟩)
    ((stepKeepsInvariant _ _ h hstep).traverses_remaining hi rfl hcs)

end

/-! ### The obligations -/

/-- Settles O47: the run is that of a traversal of the whole queue, which it leaves alone. -/
theorem traversalYieldsContents : Obligations.TraversalYieldsContents := by
  intro s c cs h hi hin hr hop hw hcs
  have hf : c.fits s.params = true := by simp [CycleInput.fits, hw]
  obtain ⟨t, os, hrun, -, htrace, hresp, hq⟩ := h.traverses_contents hi hin hr hop hf hcs
  refine ⟨t, os, hrun, htrace, ?_, hq.contents_eq, hq.head, hq.tail, hq.count⟩
  rw [hresp, tnextCount_of_ne (by rw [hop]; decide), traversalAnswers, (h.constructed hi).contents_length]
  rfl

/-- Settles O48: the line is a TRAV and one TNEXT more than there are elements. -/
theorem traverseLineReadsQueue : Obligations.TraverseLineReadsQueue := by
  intro s h hi hin
  have hlen : (contents s).length = s.count := (h.constructed hi).contents_length
  have hcs : ∀ d ∈ List.replicate (s.count + 1) (CycleInput.ofInstr .tnext),
      keepsTraversal s d = true ∧ d.fits s.params = true := by
    intro d hd
    rw [List.eq_of_mem_replicate hd]
    exact ⟨rfl, fits_ofInstr rfl⟩
  obtain ⟨t, os, hrun, hnil, htrace, hresp, hq⟩ :=
    h.traverses_contents hi hin rfl rfl (fits_ofInstr rfl) hcs
  rw [List.length_cons, List.length_replicate] at hrun
  refine ⟨t, os, hrun, hnil, htrace, ?_, hq.contents_eq⟩
  have hcount : tnextCount (CycleInput.ofInstr .trav ::
      List.replicate (s.count + 1) (CycleInput.ofInstr .tnext)) = (contents s).length + 1 := by
    simp [tnextCount, CycleInput.ofInstr, opCode, hlen]
  rw [hin, AsmLine.expand, hresp, hcount, traversalAnswers_length_succ]
  rfl

end Sys2Proof.Machine
end

section
/-! Two machines in lockstep: outcomes that stop alike or go on in related states. A relation that each step
keeps is kept by runs of every length. -/

namespace Sys2Proof.Machine

/-- The outcomes are both next states related by `R`, both faults related by `F`, or the same refusal. -/
inductive Lockstep (R : State → State → Prop) (F : Fault → Fault → Prop) : Result → Result → Prop
  | next {t u : State} (h : R t u) : Lockstep R F (.next t) (.next u)
  | fault {q r : Fault} (h : F q r) : Lockstep R F (.fault q) (.fault r)
  | refused (q : Refusal) : Lockstep R F (.refused q) (.refused q)

section
variable {R : State → State → Prop} {F : Fault → Fault → Prop}

/-- A relation that every step keeps is kept by every run. -/
theorem lockstep_run (hstep : ∀ s u, R s u → Lockstep R F (step s) (step u)) {s u : State} (h : R s u)
    (n : Nat) : Lockstep R F (Host.Core.run Sys2Proof.core n s) (Host.Core.run Sys2Proof.core n u) := by
  induction n generalizing s u with
  | zero => exact .next h
  | succ n ih =>
    have hl := hstep s u h
    generalize hs : step s = a, hu : step u = b at hl
    cases hl with
    | next h' => rw [run_succ_of_next hs, run_succ_of_next hu]; exact ih h'
    | fault h' => rw [run_succ_of_fault hs, run_succ_of_fault hu]; exact .fault h'
    | refused q => rw [run_succ_of_refused hs, run_succ_of_refused hu]; exact .refused q

theorem Lockstep.refl (hR : ∀ s, R s s) (hF : ∀ r, F r r) (a : Result) : Lockstep R F a a := by
  cases a with
  | next s => exact .next (hR s)
  | fault r => exact .fault (hF r)
  | refused q => exact .refused q

theorem Lockstep.ite {p : Prop} [Decidable p] {a a' b b' : Result} (ha : Lockstep R F a a')
    (hb : Lockstep R F b b') : Lockstep R F (if p then a else b) (if p then a' else b') := by
  split
  · exact ha
  · exact hb

theorem Lockstep.ite_of_pos {p : Prop} [Decidable p] (hp : p) {a a' b b' : Result}
    (ha : Lockstep R F a a') : Lockstep R F (if p then a else b) (if p then a' else b') := by
  rwa [if_pos hp, if_pos hp]

end

theorem step_of_nil {s : State} (h : s.inputs = []) : step s = .refused .endOfRun := by
  simp [step, fetchCycle, h]

theorem cycle_of_wide {c : CycleInput} {s : State} (hr : c.rst = false) (hw : ¬ c.wdata < 2 ^ s.params.dw) :
    cycle c s = .refused .wdataTooWide := by
  simp [cycle, hr, decodePort, hw]

end Sys2Proof.Machine
end

section
/-! The cursor (10_state.md R16): a machine does the same with any `tcur` while `trem` is 0. -/

namespace Sys2Proof.Machine

/-- The same machine with another cursor. -/
def State.withCursor (s : State) (cursor : Nat) : State := { s with tcur := cursor }

/-- `u` is `t` but for a cursor that no traversal uses. -/
def CursorTwin (t u : State) : Prop :=
  ∃ cursor, u = t.withCursor cursor ∧ (t.trem ≠ 0 → cursor = t.tcur)

/-- The faults are alike, but for the cursor of the state an UNINIT fault carries. -/
inductive CursorTwinFault : Fault → Fault → Prop
  | uninit (t : State) (cursor : Nat) : CursorTwinFault (.uninit t) (.uninit (t.withCursor cursor))
  | freeSlotRead (a : Nat) : CursorTwinFault (.freeSlotRead a) (.freeSlotRead a)
  | slotHoldsNoValue (a : Nat) : CursorTwinFault (.slotHoldsNoValue a) (.slotHoldsNoValue a)

/-- The outcomes are those of two machines that differ in an unused cursor. -/
abbrev CursorTwinResult : Result → Result → Prop := Lockstep CursorTwin CursorTwinFault

theorem CursorTwin.refl (t : State) : CursorTwin t t := ⟨t.tcur, rfl, fun _ => rfl⟩

theorem CursorTwin.of_trem_zero {t : State} (hr : t.trem = 0) (cursor : Nat) :
    CursorTwin t (t.withCursor cursor) := ⟨cursor, rfl, absurd hr⟩

theorem CursorTwin.record {t u : State} (h : CursorTwin t u) (o : Observation) :
    CursorTwin (t.record o) (u.record o) := by
  obtain ⟨cursor, rfl, hc⟩ := h
  exact ⟨cursor, rfl, hc⟩

theorem CursorTwinFault.refl (r : Fault) : CursorTwinFault r r := by
  cases r with
  | uninit t => exact .uninit t t.tcur
  | freeSlotRead a => exact .freeSlotRead a
  | slotHoldsNoValue a => exact .slotHoldsNoValue a

section
variable {s : State} {cursor : Nat} {k k' : Result}

/-! ### The shared operations do the same for both machines -/

theorem cursorTwin_respond {t u : State} (h : CursorTwin t u) (r : Response) :
    CursorTwinResult (respond s r t) (respond (s.withCursor cursor) r u) :=
  .next (h.record (observe s r))

theorem cursorTwin_raise (hr : s.trem = 0) (x : Status) :
    CursorTwinResult (raise x s) (raise x (s.withCursor cursor)) :=
  .ite (.fault (.uninit _ cursor)) (cursorTwin_respond (.of_trem_zero hr cursor) _)

theorem cursorTwin_whenInit (hr : s.trem = 0) (h : CursorTwinResult k k') :
    CursorTwinResult (whenInit s k) (whenInit (s.withCursor cursor) k') :=
  .ite h (cursorTwin_raise hr _)

theorem cursorTwin_withAddr (a : Nat) (h : CursorTwinResult k k') :
    CursorTwinResult (withAddr s a k) (withAddr (s.withCursor cursor) a k') :=
  .ite h (.refused _)

theorem cursorTwin_withCounter (c : Nat) (h : CursorTwinResult k k') :
    CursorTwinResult (withCounter s c k) (withCounter (s.withCursor cursor) c k') :=
  .ite h (.refused _)

theorem cursorTwin_withWdata (v : Elem) {k k' : Elem → Result} (h : CursorTwinResult (k v) (k' v)) :
    CursorTwinResult (withWdata s v k) (withWdata (s.withCursor cursor) v k') :=
  .ite h (.refused _)

theorem cursorTwin_memRead (a : Nat) {k k' : Elem → Result} (h : ∀ v, CursorTwinResult (k v) (k' v)) :
    CursorTwinResult (memRead s a k) (memRead (s.withCursor cursor) a k') := by
  refine cursorTwin_withAddr a (.ite ?_ (.fault (.freeSlotRead a)))
  show CursorTwinResult (match s.storage.read a with | some v => k v | none => _)
    (match s.storage.read a with | some v => k' v | none => _)
  cases s.storage.read a with
  | some v => exact h v
  | none => exact .fault (.slotHoldsNoValue a)

/-! ### So do the commands, a cycle and a step -/

theorem cursorTwin_exec (hr : s.trem = 0) (i : Instr) :
    CursorTwinResult (exec i s) (exec i (s.withCursor cursor)) := by
  have hsame : CursorTwin s (s.withCursor cursor) := .of_trem_zero hr cursor
  cases i with
  | nop => exact cursorTwin_respond hsame _
  | push v =>
    show CursorTwinResult (execPush v s) (execPush v (s.withCursor cursor))
    refine cursorTwin_withWdata v ?_
    exact cursorTwin_whenInit hr <| cursorTwin_withCounter _ <| .ite (cursorTwin_raise hr _) <|
      cursorTwin_withAddr _ <| cursorTwin_respond (.of_trem_zero (t := s.pushed v) rfl cursor) _
  | pop =>
    exact cursorTwin_whenInit hr <| cursorTwin_withCounter _ <| .ite (cursorTwin_raise hr _) <|
      cursorTwin_withAddr _ <| cursorTwin_respond (.of_trem_zero (t := s.popped) rfl cursor) _
  | front =>
    exact cursorTwin_whenInit hr <| cursorTwin_withCounter _ <| .ite (cursorTwin_raise hr _) <|
      cursorTwin_memRead _ fun v => cursorTwin_respond hsame _
  | clear => exact cursorTwin_whenInit hr <| cursorTwin_respond (.refl s.cleared) _
  | trav =>
    exact cursorTwin_whenInit hr <| cursorTwin_withAddr _ <| cursorTwin_withCounter _ <|
      cursorTwin_respond (.refl s.traversing) _
  | tnext =>
    exact cursorTwin_whenInit hr <| cursorTwin_withCounter _ <| .ite_of_pos hr <| cursorTwin_raise hr _
  | ill => exact cursorTwin_raise hr .illegal

theorem cursorTwin_cycle (hr : s.trem = 0) (c : CycleInput) :
    CursorTwinResult (cycle c s) (cycle c (s.withCursor cursor)) := by
  cases hrst : c.rst with
  | true =>
    rw [cycle_of_rst hrst, cycle_of_rst hrst]
    exact cursorTwin_respond (.refl s.afterReset) _
  | false =>
    by_cases hw : c.wdata < 2 ^ s.params.dw
    · rw [cycle_of_fits hrst hw, cycle_of_fits (s := s.withCursor cursor) hrst hw]
      exact cursorTwin_exec hr _
    · rw [cycle_of_wide hrst hw, cycle_of_wide (s := s.withCursor cursor) hrst hw]
      exact .refused _

end

theorem cursorTwin_step (s u : State) (h : CursorTwin s u) : CursorTwinResult (step s) (step u) := by
  obtain ⟨cursor, rfl, hc⟩ := h
  by_cases hr : s.trem = 0
  · cases hin : s.inputs with
    | nil =>
      rw [step_of_nil hin, step_of_nil (s := s.withCursor cursor) hin]
      exact .refused _
    | cons c rest =>
      rw [step_of_inputs hin, step_of_inputs (s := s.withCursor cursor) hin]
      exact cursorTwin_cycle (s := { s with inputs := rest }) hr c
  · rw [hc hr]
    exact .refl .refl .refl _

/-- Settles O52: runs keep the relation of two machines that differ in an unused cursor. -/
theorem cursorUnseenWithoutTraversal : Obligations.CursorUnseenWithoutTraversal := by
  intro s cursor n hr
  have h := lockstep_run cursorTwin_step (.of_trem_zero hr cursor) n
  rw [State.withCursor] at h
  generalize Host.Core.run Sys2Proof.core n s = a at h ⊢
  generalize Host.Core.run Sys2Proof.core n { s with tcur := cursor } = b at h ⊢
  cases h with
  | next h =>
    obtain ⟨c, rfl, hc⟩ := h
    exact ⟨rfl, hc⟩
  | fault h =>
    cases h with
    | uninit t c => exact rfl
    | freeSlotRead a => exact rfl
    | slotHoldsNoValue a => exact rfl
  | refused q => exact rfl

end Sys2Proof.Machine
end

section
/-! Free slots (20_memory.md R46): a machine does the same whatever they hold. -/

namespace Sys2Proof.Machine

/-- The same machine with another storage. -/
def State.withStorage (s : State) (m : Memory) : State := { s with storage := m }

/-- `s` is a constructed machine of the invariant, and `m` holds what its storage holds in every valid slot. -/
structure SlotTwin (s : State) (m : Memory) : Prop where
  inv : Inv s
  init : s.init = true
  wf : Memory.wf s.params m
  reads : ∀ i, i < s.count → m.read (slotAt s i) = s.storage.read (slotAt s i)

section
variable {s : State} {m : Memory}

theorem SlotTwin.inv_withStorage (h : SlotTwin s m) : Inv (s.withStorage m) where
  storage_wf := h.wf
  constructed := fun hi =>
    have c := h.inv.constructed hi
    ⟨c.head_lt, c.tail_lt, c.tcur_lt, c.count_le, c.trem_le, c.tail_eq,
      fun i hlt => (congrArg Option.isSome (h.reads i hlt)).trans (c.written i hlt), c.cursor⟩

/-- The two machines hold the same queue. -/
theorem SlotTwin.fifo_eq (h : SlotTwin s m) : fifo (s.withStorage m) = fifo s := by
  have hcontents : contents (s.withStorage m) = contents s := slotsFrom_congr h.reads
  have hremaining : remaining (s.withStorage m) = remaining s := by
    rw [(h.inv_withStorage.constructed h.init).remaining_eq_drop, hcontents,
      (h.inv.constructed h.init).remaining_eq_drop]
    rfl
  rw [fifo, hcontents, hremaining, fifo]

theorem SlotTwin.record (h : SlotTwin s m) (o : Observation) : SlotTwin (s.record o) m :=
  ⟨h.inv.record o, h.init, h.wf, h.reads⟩

theorem SlotTwin.withInputs (h : SlotTwin s m) (rest : List CycleInput) :
    SlotTwin { s with inputs := rest } m :=
  ⟨h.inv.withInputs rest, h.init, h.wf, h.reads⟩

theorem SlotTwin.afterReset (h : SlotTwin s m) : SlotTwin s.afterReset m :=
  ⟨h.inv.afterReset, rfl, h.wf, fun i hi => absurd hi (Nat.not_lt_zero i)⟩

/-- A PUSH that stores writes one slot of both machines, the only one that becomes valid. -/
theorem SlotTwin.reads_pushed (h : SlotTwin s m) (v : Elem) {j : Nat} (hj : j < s.count + 1) :
    (m.write s.tail v).read (slotAt s j) = (s.storage.write s.tail v).read (slotAt s j) := by
  rw [Memory.read_write, Memory.read_write]
  split
  · rfl
  · rename_i hne
    refine h.reads j (Nat.lt_of_le_of_ne (Nat.le_of_lt_succ hj) fun he => hne ?_)
    rw [he, (h.inv.constructed h.init).slotAt_count]

/-- Every command leaves both machines with the same registers and the same values in the valid slots. -/
theorem SlotTwin.edge_reads (h : SlotTwin s m) (i : Instr) :
    ∃ m', closingEdge i (s.withStorage m) = (closingEdge i s).withStorage m' ∧
      ∀ j, j < (closingEdge i s).count →
        m'.read (slotAt (closingEdge i s) j) = (closingEdge i s).storage.read (slotAt (closingEdge i s) j) := by
  have c : Constructed s := h.inv.constructed h.init
  cases i with
  | push v =>
    by_cases hc : s.count = s.params.capacity
    · rw [closingEdge_push_of_full hc, closingEdge_push_of_full (s := s.withStorage m) hc]
      exact ⟨m, rfl, h.reads⟩
    · rw [closingEdge_push_of_ne hc, closingEdge_push_of_ne (s := s.withStorage m) hc]
      exact ⟨m.write s.tail v, rfl, fun j => h.reads_pushed v⟩
  | pop =>
    obtain hc | hc := Nat.eq_zero_or_pos s.count
    · rw [closingEdge_pop_of_zero hc, closingEdge_pop_of_zero (s := s.withStorage m) hc]
      exact ⟨m, rfl, h.reads⟩
    · rw [closingEdge_pop_of_pos hc, closingEdge_pop_of_pos (s := s.withStorage m) hc]
      refine ⟨m, rfl, fun j hj => ?_⟩
      rw [c.slotAt_popped]
      exact h.reads (j + 1) (Nat.add_lt_of_lt_sub hj)
  | clear => exact ⟨m, rfl, fun j hj => absurd hj (Nat.not_lt_zero j)⟩
  | tnext =>
    obtain hr | hr := Nat.eq_zero_or_pos s.trem
    · rw [closingEdge_tnext_of_zero hr, closingEdge_tnext_of_zero (s := s.withStorage m) hr]
      exact ⟨m, rfl, h.reads⟩
    · rw [closingEdge_tnext_of_pos hr, closingEdge_tnext_of_pos (s := s.withStorage m) hr]
      exact ⟨m, rfl, h.reads⟩
  | nop | front | trav | ill => exact ⟨m, rfl, h.reads⟩

/-- So the two machines stay twins. -/
theorem SlotTwin.edge (h : SlotTwin s m) {i : Instr} (hw : WellFormed s.params i = true) :
    ∃ m', closingEdge i (s.withStorage m) = (closingEdge i s).withStorage m' ∧
      SlotTwin (closingEdge i s) m' := by
  obtain ⟨m', he, hreads⟩ := h.edge_reads i
  have hwf := (inv_closingEdge h.inv_withStorage h.init hw).storage_wf
  rw [he] at hwf
  exact ⟨m', he, inv_closingEdge h.inv h.init hw, by rw [closingEdge_init, h.init], hwf, hreads⟩

/-- Two machines whose free slots may differ. -/
def FreeSlotTwin (s u : State) : Prop := ∃ m, u = s.withStorage m ∧ SlotTwin s m

/-- Neither machine ends with a fault. -/
abbrev FreeSlotTwinResult : Result → Result → Prop := Lockstep FreeSlotTwin fun _ _ => False

/-- Both machines reset, refuse what the port cannot carry, or answer alike and stay twins. -/
theorem freeSlotTwin_cycle (h : SlotTwin s m) (c : CycleInput) :
    FreeSlotTwinResult (cycle c s) (cycle c (s.withStorage m)) := by
  cases hr : c.rst with
  | true =>
    rw [cycle_of_rst hr, cycle_of_rst hr]
    exact .next ⟨m, rfl, h.afterReset.record _⟩
  | false =>
    by_cases hw : c.wdata < 2 ^ s.params.dw
    · have hwf : WellFormed s.params (decodeOp c.op c.wdata) = true := wellFormed_decodeOp hw c.op
      obtain ⟨m', he, htwin⟩ := h.edge hwf
      rw [cycle_of_fits hr hw, cycle_of_fits (s := s.withStorage m) hr hw, (h.inv.refines h.init hwf).exec_eq,
        (h.inv_withStorage.refines h.init hwf).exec_eq, h.fifo_eq, he]
      exact .next ⟨m', rfl, htwin.record _⟩
    · rw [cycle_of_wide hr hw, cycle_of_wide (s := s.withStorage m) hr hw]
      exact .refused _

end

theorem freeSlotTwin_step (s u : State) (h : FreeSlotTwin s u) : FreeSlotTwinResult (step s) (step u) := by
  obtain ⟨m, rfl, h⟩ := h
  cases hin : s.inputs with
  | nil =>
    rw [step_of_nil hin, step_of_nil (s := s.withStorage m) hin]
    exact .refused _
  | cons c rest =>
    rw [step_of_inputs hin, step_of_inputs (s := s.withStorage m) hin]
    exact freeSlotTwin_cycle (h.withInputs rest) c

/-- Settles O53: runs keep the relation of two machines whose free slots may differ. -/
theorem freeSlotsUnseen : Obligations.FreeSlotsUnseen := by
  intro s m n hinv hwf hi hreads
  have h := lockstep_run freeSlotTwin_step ⟨m, rfl, hinv, hi, hwf, hreads⟩ n
  rw [State.withStorage] at h
  generalize Host.Core.run Sys2Proof.core n s = a at h ⊢
  generalize Host.Core.run Sys2Proof.core n { s with storage := m } = b at h ⊢
  cases h with
  | next h =>
    obtain ⟨m', rfl, htwin⟩ := h
    exact ⟨rfl, htwin.reads⟩
  | fault h => exact h.elim
  | refused q => exact rfl

end Sys2Proof.Machine
end

section
/-! Which status each cycle answers (60_exceptions.md sections 1, 3 and 6). -/

namespace Sys2Proof.Machine

section
variable {s : State} {c : CycleInput}

/-! ### Before the first reset -/

/-- A command other than NOP and the reserved code is an UNINIT fault before the first reset (60_exceptions.md
R95). -/
theorem exec_of_not_init {i : Instr} (hi : s.init = false) (hw : WellFormed s.params i = true)
    (hn : ¬ neverUninit i) : exec i s = .fault (.uninit (s.record (observe s (noData .uninit)))) := by
  cases i with
  | nop => exact absurd (.inl rfl) hn
  | push v => exact execPush_of_not_init (by simpa [WellFormed] using hw) hi
  | pop | front | clear | trav | tnext => exact whenInit_of_not_init hi _
  | ill => exact absurd (.inr rfl) hn

theorem exec_neverUninit_ne_uninit {i : Instr} (hn : neverUninit i) (t : State) :
    exec i s ≠ .fault (.uninit t) := by
  obtain rfl | rfl := hn
  · exact respond_ne_uninit _ _ _ _
  · exact raise_ne_uninit (x := .illegal) (by decide) _ _

/-! ### The `status` output is the status of the command -/

theorem statusOut_of_rst (hr : c.rst = true) : statusOut s c = .ok := if_pos hr

/-- Where the command is let through, the eight lines of 60_exceptions.md R98 give its status. -/
theorem statusOut_of_guarded (hr : c.rst = false)
    (hg : s.init = true ∨ neverUninit (decodeOp c.op c.wdata)) :
    statusOut s c = commandStatus (decodeOp c.op c.wdata) s := by
  obtain ⟨rst, op, w⟩ := c
  obtain rfl : rst = false := hr
  have hinit : op ≠ opCode .nop → op ≠ opCode .ill → s.init = true := fun h0 h7 =>
    hg.resolve_right fun hn => (op_of_neverUninit hn).elim h0 h7
  obtain rfl | rfl | rfl | rfl | rfl | rfl | rfl | rfl := op_cases op
  case inl | inr.inr.inr.inr.inr.inr.inr => rfl
  all_goals
    have hi : s.init = true := hinit (by decide) (by decide)
    simp [statusOut, opCode, decodeOp, commandStatus, hi]

theorem statusOut_of_unguarded (hr : c.rst = false) (hi : s.init = false)
    (hn : ¬ neverUninit (decodeOp c.op c.wdata)) : statusOut s c = .uninit := by
  have h0 : c.op ≠ opCode .nop := fun h => hn (neverUninit_decodeOp (.inl h) c.wdata)
  have h7 : c.op ≠ opCode .ill := fun h => hn (neverUninit_decodeOp (.inr h) c.wdata)
  simp [statusOut, hr, hi, h0, h7]

theorem commandStatus_ne_uninit (i : Instr) (s : State) : commandStatus i s ≠ .uninit := by
  cases i with
  | push | pop | front | tnext => rw [commandStatus]; split <;> decide
  | nop | clear | trav | ill => exact nofun

theorem eq_ill_of_commandStatus {i : Instr} (h : commandStatus i s = .illegal) : i = .ill := by
  cases i with
  | push | pop | front | tnext => rw [commandStatus] at h; split at h <;> cases h
  | nop | clear | trav => cases h
  | ill => rfl

/-- ILLEGAL is the status of the reserved code alone (60_exceptions.md R96). -/
theorem op_of_statusOut_illegal (h : statusOut s c = .illegal) : c.rst = false ∧ c.op = 7 := by
  cases hr : c.rst with
  | true => rw [statusOut_of_rst hr] at h; cases h
  | false =>
    refine ⟨rfl, ?_⟩
    by_cases hg : s.init = true ∨ neverUninit (decodeOp c.op c.wdata)
    · rw [statusOut_of_guarded hr hg] at h
      rw [← opCode_decodeOp c.op c.wdata, eq_ill_of_commandStatus h]
      rfl
    · obtain ⟨hi, hn⟩ := not_or.1 hg
      rw [statusOut_of_unguarded hr (by simpa using hi) hn] at h
      cases h

/-- A step with a next state records the status the eight lines give. -/
theorem step_next_status {t : State} {rest : List CycleInput} (hin : s.inputs = c :: rest)
    (h : step s = .next t) :
    statusOut s c ≠ .uninit ∧ ∃ r, t.trace = observe s r :: s.trace ∧ r.status = statusOut s c := by
  obtain ⟨hr, rfl⟩ | ⟨hr, -, hg, r, hstatus, rfl⟩ := step_completes hin h
  · rw [statusOut_of_rst hr]
    exact ⟨by decide, okNoData, rfl, rfl⟩
  · have hout := statusOut_of_guarded (s := { s with inputs := rest }) hr hg
    exact ⟨fun hu => commandStatus_ne_uninit _ _ (hout.symm.trans hu), r,
      by rw [State.record_trace, closingEdge_trace]; rfl, hstatus.trans hout.symm⟩

/-- A response with the status of the eight lines that follows the rule of 30_encoding.md R52 is the one of
the output definitions. -/
theorem DataFollowsRead.eq_out {r : Response} (h : DataFollowsRead s c r) (hs : r.status = statusOut s c) :
    r.rvalid = rvalidOut s c ∧ some r.rdata = rdataOut s c := by
  have hrv : r.rvalid = rvalidOut s c := by
    rw [Bool.eq_iff_iff, h.rvalid_iff, hs]
    simp [rvalidOut, opCode, and_assoc]
  refine ⟨hrv, ?_⟩
  rw [rdataOut, ← hrv]
  cases hv : r.rvalid with
  | true => exact (h.read hv).symm
  | false => exact congrArg some (h.rdata_zero hv)

end

/-! ### The obligations -/

/-- Settles O22: the guard raises UNINIT before the first reset, and nothing else does. -/
theorem uninitExactlyBeforeReset : Obligations.UninitExactlyBeforeReset := by
  refine fun i s hw => ⟨fun h => ?_, fun ⟨hi, hnop, hill⟩ => ?_⟩
  · have hn : ¬ neverUninit i := fun hn => exec_neverUninit_ne_uninit hn _ h
    exact ⟨(exec_uninit h).1, fun he => hn (.inl he), fun he => hn (.inr he)⟩
  · exact exec_of_not_init hi hw fun hn => hn.elim hnop hill

/-- Settles O25: the status of a command that completes, and the commands that are never UNINIT. -/
theorem statusesOfEachCommand : Obligations.StatusesOfEachCommand := by
  refine ⟨fun i s t o older h ho => ?_, fun i s t h => ?_⟩
  · obtain ⟨-, -, r, hstatus, rfl⟩ := exec_next h
    obtain ⟨rfl, -⟩ := List.cons.inj ho
    cases i with
    | nop | clear | trav | ill => exact hstatus
    | push | pop | front | tnext =>
      exact (ite_eq_or_eq _ _ _).symm.imp hstatus.trans hstatus.trans
  · exact ⟨fun he => exec_neverUninit_ne_uninit (.inl he) t h,
      fun he => exec_neverUninit_ne_uninit (.inr he) t h⟩

/-- Settles O19: only the status line of the reserved code is ILLEGAL, and it changes nothing. -/
theorem illegalExactlyOnReservedCode : Obligations.IllegalExactlyOnReservedCode := by
  refine fun s c rest hin hf => ⟨fun h => ?_, fun ⟨hr, hop⟩ => ?_⟩
  · obtain ⟨-, r, htrace, hstatus⟩ := step_next_status hin h
    have hobs : observe s ⟨.illegal, false, 0⟩ = observe s r := (List.cons.inj htrace).1
    exact op_of_statusOut_illegal (hstatus.symm.trans (congrArg (·.response.status) hobs).symm)
  · rw [step_of_fits hin hr hf, hop]
    rfl

/-- Settles O26: a cycle that is let through records the outputs of the definitions, and any other is an UNINIT
fault with theirs. -/
theorem responseIsTheCombinationalOne : Obligations.ResponseIsTheCombinationalOne := by
  intro s c rest h hin hf
  by_cases hboot : s.init = true ∨ c.rst = true ∨ c.op = opCode .nop ∨ c.op = opCode .ill
  · obtain ⟨t, ht⟩ := h.step_progress hin hf hboot
    obtain ⟨hne, r', htrace', hstatus⟩ := step_next_status hin ht
    obtain ⟨r, htrace, hdata⟩ := step_next_dataFollowsRead hin ht
    obtain rfl : r' = r := congrArg Observation.response (List.cons.inj (htrace'.symm.trans htrace)).1
    obtain ⟨hrv, hrd⟩ := hdata.eq_out hstatus
    exact ⟨r', t, htrace, .inl ht, hstatus, hrv, hrd, fun hu => by simp [ht] at hu, fun hu => absurd hu hne⟩
  · simp only [not_or, Bool.not_eq_true] at hboot
    obtain ⟨hi, hr, h0, h7⟩ := hboot
    have hn : ¬ neverUninit (decodeOp c.op c.wdata) := fun hn => (op_of_neverUninit hn).elim h0 h7
    have hstatus := statusOut_of_unguarded hr hi hn
    obtain ⟨hrv, hrd⟩ := (DataFollowsRead.of_status_ne_ok (s := s) (c := c) (by decide)).eq_out hstatus.symm
    have hstep : step s = .fault (.uninit _) :=
      (step_of_fits hin hr hf).trans (exec_of_not_init hi (wellFormed_of_fits hr hf) hn)
    exact ⟨noData .uninit, _, rfl, .inr hstep, hstatus.symm, hrv, hrd, fun _ => hstatus, fun _ => hstep⟩

end Sys2Proof.Machine
end

section
/-! What each command leaves alone (10_state.md section 4), and how `count` and the storage move. -/

namespace Sys2Proof.Machine

section
variable {s t : State}

/-- The status outputs depend on the queue alone (42_status_outputs.md R80 to R83). -/
theorem SameQueue.outputs_eq (h : SameQueue s t) :
    sizeO t = sizeO s ∧ emptyO t = emptyO s ∧ fullO t = fullO s :=
  have ho : observe t okNoData = observe s okNoData := observe_congr h.params h.init h.count _
  ⟨congrArg (·.sizeO) ho, congrArg (·.emptyO) ho, congrArg (·.fullO) ho⟩

/-- A command that completes keeps the parameters, `init` and the host's list, and records one observation. -/
theorem Completes.frame {i : Instr} (h : Completes i s t) :
    t.params = s.params ∧ t.init = s.init ∧ t.inputs = s.inputs ∧ ∃ o, t.trace = o :: s.trace := by
  obtain ⟨-, -, r, -, rfl⟩ := h
  obtain ⟨hp, hi, hin, htr⟩ := closingEdge_frame i s
  exact ⟨hp, hi, hin, _, by rw [State.record_trace, htr]⟩

/-- Only PUSH writes a slot (20_memory.md R46). -/
theorem closingEdge_storage_of_ne_push {i : Instr} (h : opCode i ≠ 1) (s : State) :
    (closingEdge i s).storage = s.storage := by
  cases i with
  | push v => exact absurd rfl h
  | pop => rw [closingEdge]; split <;> rfl
  | tnext => rw [closingEdge]; split <;> rfl
  | nop | front | clear | trav | ill => rfl

/-- A PUSH writes the slot at the old tail, unless the buffer is full (20_memory.md R34). -/
theorem closingEdge_push_read (v : Elem) (s : State) (a : Nat) :
    (closingEdge (.push v) s).storage.read a =
      if s.count ≠ s.params.capacity ∧ s.tail = a then some v else s.storage.read a := by
  by_cases hc : s.count = s.params.capacity
  · rw [closingEdge_push_of_full hc, if_neg fun h => h.1 hc]
  · rw [closingEdge_push_of_ne hc, State.pushed, memWrite_read]
    simp [hc, eq_comm]

theorem writeEnable_iff (s : State) (c : CycleInput) (a : Nat) :
    writeEnable s c a = true ↔
      c.op = 1 ∧ c.rst = false ∧ s.init = true ∧ s.count ≠ s.params.capacity ∧ s.tail = a := by
  simp [writeEnable, opCode, and_assoc]

end

/-- A cycle that is no PUSH does the same with any operand the port carries (30_encoding.md R49). -/
theorem cycle_wdata {c : CycleInput} {w : Nat} {s : State} (hop : c.op ≠ 1) (hc : c.wdata < 2 ^ s.params.dw)
    (hw : w < 2 ^ s.params.dw) : cycle { c with wdata := w } s = cycle c s := by
  obtain ⟨rst, op, v⟩ := c
  cases rst with
  | true => rfl
  | false => rw [cycle_of_fits rfl hw, cycle_of_fits rfl hc, decodeOp_of_ne_push hop w v]

/-! ### The obligations -/

/-- Settles O33: the two branches of the edge of a PUSH. -/
theorem pushFrame : Obligations.PushFrame := by
  intro v s t h
  have hcomp := exec_next h
  obtain ⟨hp, hi, hin, ho⟩ := hcomp.frame
  obtain ⟨-, -, r, -, rfl⟩ := hcomp
  have hregs : (closingEdge (.push v) s).head = s.head ∧ (closingEdge (.push v) s).tcur = s.tcur := by
    rw [closingEdge]
    split <;> exact ⟨rfl, rfl⟩
  refine ⟨hp, hi, hregs.1, hregs.2, hin, ho, fun a ha => ?_⟩
  rw [State.record_storage, closingEdge_push_read, if_neg fun h => ha h.2.symm]

/-- Settles O34: none of the four is a PUSH, POP writes three registers, TRAV and TNEXT the cursor's two. -/
theorem registerCommandsFrame : Obligations.RegisterCommandsFrame := by
  refine ⟨fun i s t hi h => ?_, fun s t h => ?_, fun i s t hi h => ?_⟩
  · have hcomp := exec_next h
    obtain ⟨hp, hinit, hin, ho⟩ := hcomp.frame
    obtain ⟨-, -, r, -, rfl⟩ := hcomp
    have hne : opCode i ≠ 1 := by obtain rfl | rfl | rfl | rfl := hi <;> decide
    exact ⟨hp, hinit, hin, ho, fun a => by rw [State.record_storage, closingEdge_storage_of_ne_push hne]⟩
  · obtain ⟨-, ⟨-, rfl⟩ | ⟨-, -, -, rfl⟩⟩ := execPop_next h
    · exact ⟨rfl, rfl⟩
    · exact ⟨rfl, rfl⟩
  · obtain ⟨-, -, r, -, rfl⟩ := exec_next h
    have hq : SameQueue s ((closingEdge i s).record (observe s r)) := by
      obtain rfl | rfl := hi
      · exact ⟨rfl, rfl, rfl, rfl, rfl, rfl⟩
      · exact (sameQueue_tnext s).of_withInputs (rest := s.inputs) _
    exact ⟨hq.head, hq.tail, hq.count, hq.outputs_eq⟩

/-- Settles O35: the three commands leave the state they ran in. -/
theorem readOnlyCommandsFrame : Obligations.ReadOnlyCommandsFrame := by
  intro i s t hi h
  obtain ⟨-, -, r, -, rfl⟩ := exec_next h
  have hedge : closingEdge i s = s := by obtain rfl | rfl | rfl := hi <;> rfl
  rw [hedge]
  exact ⟨⟨rfl, rfl, rfl, rfl, rfl, rfl, rfl, rfl⟩, rfl, ⟨_, rfl⟩, rfl, rfl, rfl⟩

/-- Settles O36: the write decode selects a slot exactly in a PUSH that stores, and there the old tail. -/
theorem storageFollowsWriteDecode : Obligations.StorageFollowsWriteDecode := by
  intro s t c rest h hin a
  obtain ⟨hr, rfl⟩ | ⟨hr, -, hg, r, -, rfl⟩ := step_completes hin h
  · rw [if_neg (by simp [writeEnable_iff, hr])]
    rfl
  · by_cases hop : c.op = 1
    · have hdec : decodeOp c.op c.wdata = .push c.wdata := by rw [hop]; rfl
      rw [hdec] at hg ⊢
      have hi : s.init = true := hg.resolve_right fun hn => by obtain he | he := hn <;> cases he
      rw [State.record_storage, closingEdge_push_read]
      exact if_congr (by simp [writeEnable_iff, hop, hr, hi]) rfl rfl
    · rw [if_neg fun hw => hop ((writeEnable_iff s c a).1 hw).1, State.record_storage,
        closingEdge_storage_of_ne_push (by rwa [opCode_decodeOp])]

/-- Settles O37: reset and every command but PUSH take no operand. -/
theorem wdataIgnoredUnlessPush : Obligations.WdataIgnoredUnlessPush := by
  intro s c rest w hop hc hw
  rw [step_of_inputs rfl, step_of_inputs rfl]
  exact cycle_wdata (s := { s with inputs := rest }) hop hc hw

/-- Settles O44: the invariant bounds `count`, and the edge of each command moves it as its status says. -/
theorem countMovesByOneOrToZero : Obligations.CountMovesByOneOrToZero := by
  intro i s t o hinv h ho
  have hcomp := exec_next h
  refine ⟨fun hi => ((hinv.completes hcomp).constructed hi).count_le, ?_⟩
  obtain ⟨-, -, r, hstatus, rfl⟩ := hcomp
  obtain ⟨rfl, -⟩ := List.cons.inj ho
  rw [observe_response, hstatus, State.record_count]
  cases i with
  | push v =>
    by_cases hc : s.count = s.params.capacity
    · simp [commandStatus, hc, closingEdge_push_of_full]
    · simp [commandStatus, hc, closingEdge_push_of_ne, State.pushed]
  | pop =>
    obtain hc | hc := Nat.eq_zero_or_pos s.count
    · simp [commandStatus, hc, closingEdge_pop_of_zero]
    · simp [commandStatus, hc.ne', closingEdge_pop_of_pos hc, State.popped, Nat.sub_add_cancel hc]
  | tnext => exact (sameQueue_tnext s).count
  | nop | front | clear | trav | ill => rfl

/-- Settles O51: all three leave the five registers 0 and everything else as it was. -/
theorem clearTwiceAndResetAgree : Obligations.ClearTwiceAndResetAgree := by
  intro s t h
  obtain ⟨hi, rfl⟩ := execClear_next h
  exact ⟨⟨_, execClear_of_init hi, rfl, rfl, rfl, rfl, rfl, rfl, rfl, rfl⟩,
    ⟨_, rfl, rfl, hi.symm, rfl, rfl, rfl, rfl, rfl, rfl⟩⟩

/-- Settles O54: both PUSHes find the buffer full, or both store, and the element goes to the slot alone. -/
theorem outputsIgnoreWdata : Obligations.OutputsIgnoreWdata := by
  intro s t u v w ht hu
  obtain ⟨-, -, ⟨hc, rfl⟩ | ⟨hc, -, rfl⟩⟩ := execPush_next ht
  · obtain ⟨-, -, ⟨-, rfl⟩ | ⟨hc', -, -⟩⟩ := execPush_next hu
    · exact ⟨rfl, rfl, rfl, rfl, rfl, rfl, rfl⟩
    · exact absurd hc hc'.ne
  · obtain ⟨-, -, ⟨hc', -⟩ | ⟨-, -, rfl⟩⟩ := execPush_next hu
    · exact absurd hc' hc.ne
    · exact ⟨rfl, rfl, rfl, rfl, rfl, rfl, rfl⟩

end Sys2Proof.Machine
end

section
/-! The state after reset, at power-on, and of every constructed machine (10_state.md sections 3 and 6). -/

namespace Sys2Proof.Machine

/-- Settles O5: a command that decodes is one the port carries. -/
theorem stepRunsDecodedCommand : Obligations.StepRunsDecodedCommand := by
  intro s c rest i hin hr hd
  rw [step_of_inputs hin, cycle, if_neg (by simp [hr]), hd]

/-- Settles O8: the registers are those of the empty queue and no slot is listed. -/
theorem resetStateMeetsInvariant : Obligations.ResetStateMeetsInvariant :=
  ⟨Memory.wf_nil _, fun _ => .of_zero rfl rfl rfl rfl rfl⟩

/-- Settles O7: the registers are fixed values, and the outputs are those of an empty machine. -/
theorem resetStateValues : Obligations.ResetStateValues := by
  obtain ⟨hsize, hempty, hfull⟩ := outputs_of_count_zero (s := State.reset) rfl rfl
  exact ⟨rfl, rfl, rfl, rfl, rfl, rfl, hsize, hempty, hfull, Memory.read_nil⟩

/-- Settles O9: `init` is 0 and no slot is listed. -/
theorem powerOnStateHoldsNoValue : Obligations.PowerOnStateHoldsNoValue := by
  intro p k inputs
  obtain ⟨hsize, hempty, hfull⟩ := outputs_of_not_init (s := State.powerOn p k inputs) rfl
  exact ⟨rfl, Memory.read_nil, hsize, hempty, hfull, Memory.wf_nil p, fun hi => by cases hi⟩

/-- Settles O10: the effect of a reset cycle, from a state with no stored value. -/
theorem powerOnThenReset : Obligations.PowerOnThenReset := fun p k c rest hr =>
  resetCycleEffect (State.powerOn p k (c :: rest)) c rest rfl hr

/-- Settles O18: the reserved code raises ILLEGAL, which is an ordinary step. -/
theorem reservedCodeAnswersIllegal : Obligations.ReservedCodeAnswersIllegal := fun s =>
  raise_of_ne (x := .illegal) (by decide) s

/-- Settles O29: `count` is not both 0 and `CAPACITY`, and with one slot it is one of the two. -/
theorem emptyAndFullExclude : Obligations.EmptyAndFullExclude := by
  intro s h hi
  have hle := (h.constructed hi).count_le
  have hpos := s.params.capacity_pos
  simp only [emptyO_of_init hi, fullO_of_init hi, Option.some.injEq, decide_eq_true_eq, decide_eq_false_iff_not]
  exact ⟨by omega, by omega⟩

/-- Settles O30: equal offsets are the only ones that reach one slot, and `CAPACITY` wraps to 0. -/
theorem pointersMeetWhenEmptyOrFull : Obligations.PointersMeetWhenEmptyOrFull := by
  intro s h hi
  have c := h.constructed hi
  have hhead : (s.head + 0) % s.params.capacity = s.head := Nat.mod_eq_of_lt c.head_lt
  refine ⟨c.tail_eq, fun he => ?_, fun hc => ?_⟩
  · obtain hc | hc := c.count_le.eq_or_lt
    · exact .inr hc
    · exact .inl (offset_inj hc s.params.capacity_pos ((c.tail_eq.symm.trans he).trans hhead.symm))
  · rw [c.tail_eq]
    obtain hc | hc := hc
    · rw [hc, hhead]
    · rw [hc, Nat.add_mod_right, ← hhead, Nat.add_zero, Nat.mod_mod]

/-- `AW` bits hold every slot address (00_scope.md R7). -/
theorem lt_two_pow_addrWidth {p : Params} {a : Nat} (h : a < p.capacity) : a < 2 ^ addrWidth p :=
  calc a < p.capacity := h
    _ ≤ 2 ^ clog2 p.capacity := le_two_pow_clog2 _
    _ ≤ 2 ^ addrWidth p := Nat.pow_le_pow_right (by decide) (Nat.le_max_right _ _)

/-- `CW` bits hold every counter value (00_scope.md R7). -/
theorem lt_two_pow_counterWidth {p : Params} {n : Nat} (h : n ≤ p.capacity) : n < 2 ^ counterWidth p :=
  (Nat.lt_succ_of_le h).trans_le (le_two_pow_clog2 _)

/-- Settles O31: the ranges of the invariant fit the widths. -/
theorem registersFitTheirWidths : Obligations.RegistersFitTheirWidths := fun _ h hi =>
  have c := h.constructed hi
  ⟨lt_two_pow_addrWidth c.head_lt, lt_two_pow_addrWidth c.tail_lt, lt_two_pow_addrWidth c.tcur_lt,
    lt_two_pow_counterWidth c.count_le, lt_two_pow_counterWidth (c.trem_le.trans c.count_le)⟩

/-- Settles O32: the definition, and the successor it is on the range. -/
theorem incWrapIsSuccessorModCapacity : Obligations.IncWrapIsSuccessorModCapacity := fun _ _ h =>
  ⟨rfl, incWrap_eq_mod h, incWrap_lt h⟩

end Sys2Proof.Machine
end
